-- ==== Sys2Proof/Word.lean ====
section
/-! DEFINITION. The word, address and trace-field types of CORE (spec/00_scope.md R5, spec/20_memory.md R60). -/

namespace Sys2Proof

/-- A host-visible register or bus word: XLEN = 32 bits (R5, R60). -/
abbrev Word := BitVec 32

/-- A word address on the host bus: 16 bits, numbering 32-bit words, not bytes (R60). -/
abbrev Addr := BitVec 16

/-- The 32-bit word that holds a natural.  Every value the rules put in a word is below 2^32 (R96, R116). -/
abbrev word (n : Nat) : Word := BitVec.ofNat 32 n

end Sys2Proof
end

