-- ==== Sys2Proof/Config.lean ====
section
/-! DEFINITION. What an implementation of CORE fixes: the fixed parameters of spec/00_scope.md R5 and the named
parameters (CP_MAX, SBOX0, SBOX1, CORE_BASE).  The named parameters with defaults are a record that State carries, so a
statement about every state holds for every choice of them (R5: each is an argument of the model). -/

namespace Sys2Proof

/-- PQ_W: p and q must be below 2^16 (R5). -/
def pqWidth : Nat := 16
/-- MSG_CAP: entries in each of the IN and OUT message buffers (R5). -/
def msgCap : Nat := 256
/-- TRACE_CAP: records the trace buffer holds (R5). -/
def traceCap : Nat := 512
/-- BLEN_MAX: the maximum bitstring length of PERMUTE, ROTL and XOR (R5). -/
def blenMax : Nat := 16
/-- KEY_LEN: the S-DES key length in bits (R5). -/
def keyLen : Nat := 10
/-- BLOCK_LEN: the S-DES block length in bits (R5). -/
def blockLen : Nat := 8

/-- An S-box: a fixed 4x4 matrix of 2-bit values, addressed by row and column (R33). -/
abbrev SBox := Vector (Vector (BitVec 2) 4) 4

/-- The named parameters of the model that have a default (R5): the largest valid code point and the two S-box ROMs. -/
structure Config where
  /-- CP_MAX, inclusive (R5, R166). -/
  cpMax : Nat
  /-- SBOX0, the contents of the S0 ROM (R33). -/
  sbox0 : SBox
  /-- SBOX1, the contents of the S1 ROM (R33). -/
  sbox1 : SBox
  deriving DecidableEq, Repr

/-- The default of SBOX0, row by row (R33). -/
def Config.defaultSbox0 : SBox := #v[#v[1, 0, 3, 2], #v[3, 2, 1, 0], #v[0, 2, 1, 3], #v[3, 1, 3, 2]]

/-- The default of SBOX1, row by row (R33). -/
def Config.defaultSbox1 : SBox := #v[#v[0, 1, 2, 3], #v[2, 0, 1, 3], #v[3, 0, 1, 0], #v[2, 1, 0, 3]]

/-- The parameters at the defaults of R5 and R33. -/
def Config.default : Config :=
  { cpMax := 0x10FFFF, sbox0 := Config.defaultSbox0, sbox1 := Config.defaultSbox1 }

/-- CORE_BASE, where CORE sits in a larger system's address space: an open parameter that no rule reads (R66).  It has
no body here, and nothing in the model reads it. -/
opaque Config.coreBase : Nat

end Sys2Proof
end

