-- ==== Sys2Proof/Machine/State.lean ====
section
/-! DEFINITION. The state of CORE (spec/10_state.md R20), its reset value (spec/70_reset_and_hazards.md R260), and the
reasons a step can stop. -/

namespace Sys2Proof.Machine

/-- STATUS, field by field (R28).  Bits 7:5 and 31:12 are reserved and read 0: they hold no state.  Its 32-bit reading is
`Status.toWord` (Flags.lean). -/
structure Status where
  /-- bit 0: a command is accepted and not yet complete. -/
  busy : Bool
  /-- bit 1: the last accepted command has completed. -/
  done : Bool
  /-- bit 2: the last completed command ended in an error. -/
  err : Bool
  /-- bit 3: MODINV found an inverse. -/
  found : Bool
  /-- bit 4 (BUSY_WR): a host write arrived while BUSY = 1 and was dropped. -/
  busyWr : Bool
  /-- bits 11:8 (ERRCODE): the error code when ERR = 1, else 0. -/
  errCode : BitVec 4
  deriving DecidableEq, Repr

/-- The storage behind the host bus that is addressed word by word: the permutation tables (R30), GT (R32), IN (R34),
OUT (R35) and TRACE (R36).  A list of (word address, word) pairs in one canonical form (`Memory.wf`): addresses strictly
rising, and no entry equal to what an unlisted address reads as.  The unit is the 32-bit word, because no storage in CORE
is addressed in smaller units and no byte order exists (R61, R62). -/
abbrev Memory := List (Nat × Word)

/-- One bus transaction of the host (R60). -/
inductive Transaction where
  /-- `MemRead(addr, 4)`. -/
  | read (addr : Addr)
  /-- `MemWrite(addr, 4, v)`. -/
  | write (addr : Addr) (v : Word)
  deriving DecidableEq, Repr

/-- One turn of one of the three agents (R11). -/
inductive Turn where
  /-- The host performs one transaction (R60). -/
  | host (t : Transaction)
  /-- The engine takes its completion step, which is enabled exactly when BUSY = 1 (R266). -/
  | engine
  /-- The reset input (R260). -/
  | reset
  deriving DecidableEq, Repr

/-- What stands outside CORE and drives it: the order in which the three agents move, and what the host has been told.
R266 leaves the interleaving open, so it is data: a statement about every state is a statement about every interleaving. -/
structure Outside where
  /-- The turns to come, the next one first. -/
  turns : List Turn
  /-- The words the host's reads returned, with their addresses, the latest first. -/
  reads : List (Addr × Word)
  deriving DecidableEq, Repr

/-- The state of CORE (R20), with its parameters and what drives it. -/
structure State where
  /-- CMD: the last accepted command word (R27). -/
  cmd : Word
  /-- STATUS (R28). -/
  status : Status
  /-- A (R22). -/
  a : Word
  /-- B (R22). -/
  b : Word
  /-- C (R22). -/
  c : Word
  /-- P (R23). -/
  p : Word
  /-- Q (R23). -/
  q : Word
  /-- KEY (R24). -/
  key : Word
  /-- BLOCK (R24). -/
  block : Word
  /-- LEN (R25). -/
  len : Word
  /-- MLEN (R26). -/
  mlen : Word
  /-- RES0 (R29). -/
  res0 : Word
  /-- RES1 (R29). -/
  res1 : Word
  /-- RES2 (R29). -/
  res2 : Word
  /-- RES3 (R29). -/
  res3 : Word
  /-- TRACE_LEN: the number of valid trace records (R36). -/
  traceLen : Word
  /-- The tables P10, P8, IP, IPINV, EP, P4 and GT, and the buffers IN, OUT and TRACE (R30 to R32, R34 to R36). -/
  mem : Memory
  /-- The S-box ROM (R33) and CP_MAX (R5), fixed for the machine's lifetime. -/
  cfg : Config
  /-- The agents' turns to come, and what the host has read (R11, R266): the model's own field. -/
  outside : Outside
  deriving DecidableEq, Repr

/-- The reasons the machine could stop with a fault.  There are none: an error of a command is a completion status, not a
trap (R238), unmapped and read-only accesses raise nothing (R65), no access can be misaligned (R63), and no behaviour of
CORE is stuck (spec/93_implementation_defined.md).  Safe: nothing raises it. -/
inductive Fault where
  deriving DecidableEq, Repr

/-- The reasons the model could give no meaning to a step. -/
inductive Refusal where
  /-- Raised by `exec` for a command of the opcode table whose meaning is not written yet.  Safe: the run stops.  Every
  command has its meaning, so nothing raises it. -/
  | notModelled (mnemonic : String)
  deriving DecidableEq, Repr

/-- STATUS after reset: every field 0 (R260). -/
def Status.reset : Status :=
  { busy := false, done := false, err := false, found := false, busyWr := false, errCode := 0 }

/-- CORE after reset (R260), with the parameters given.  Every register, table entry and buffer word is 0: the memory
lists nothing. -/
def State.resetWith (cfg : Config) : State :=
  { cmd := 0, status := Status.reset
    a := 0, b := 0, c := 0, p := 0, q := 0, key := 0, block := 0, len := 0, mlen := 0
    res0 := 0, res1 := 0, res2 := 0, res3 := 0, traceLen := 0
    mem := [], cfg := cfg, outside := { turns := [], reads := [] } }

/-- The machine right after reset, with the default parameters (R260, R5, R33). -/
def State.reset : State := State.resetWith Config.default

end Sys2Proof.Machine
end

