-- ==== Sys2Proof/Machine/Flags.lean ====
section
/-! DEFINITION. The status register: its error codes, its 32-bit reading and every way it changes
(spec/10_state.md R28; spec/60_exceptions.md R230, R235 to R237; spec/70_reset_and_hazards.md R270). -/

namespace Sys2Proof.Machine

/-- The error kinds (R230). -/
inductive ErrorCode where
  | malformedInput
  | tableIndexOutOfRange
  | lengthMismatch
  | degenerateKey
  | invalidCodepoint
  | illegalCommand
  deriving DecidableEq, Repr

/-- The numbers STATUS.ERRCODE holds (R87, R230). -/
def ErrorCode.code : ErrorCode → BitVec 4
  | .malformedInput => 1
  | .tableIndexOutOfRange => 2
  | .lengthMismatch => 3
  | .degenerateKey => 4
  | .invalidCodepoint => 5
  | .illegalCommand => 6

/-- A flag as a number. -/
def flag (b : Bool) : Nat := if b then 1 else 0

/-- What a read of STATUS returns: BUSY, DONE, ERR, FOUND, BUSY_WR in bits 0 to 4, ERRCODE in bits 11:8, and 0 in the
reserved bits (R28). -/
def Status.toWord (s : Status) : Word :=
  word (flag s.busy + 2 * flag s.done + 4 * flag s.err + 8 * flag s.found + 16 * flag s.busyWr + 256 * s.errCode.toNat)

/-- STATUS at an accept: BUSY = 1 and every other field 0 (R235). -/
def Status.accepted : Status :=
  { busy := true, done := false, err := false, found := false, busyWr := false, errCode := 0 }

/-- STATUS at a successful completion, `found` being MODINV's answer and false for every other command; BUSY_WR is
unchanged (R236). -/
def Status.succeeded (s : Status) (found : Bool) : Status :=
  { s with busy := false, done := true, err := false, errCode := 0, found := found }

/-- STATUS at an error completion; BUSY_WR is unchanged (R237). -/
def Status.failed (s : Status) (e : ErrorCode) : Status :=
  { s with busy := false, done := true, err := true, errCode := e.code, found := false }

/-- STATUS after a host write that arrived while BUSY = 1 (R270). -/
def Status.dropped (s : Status) : Status := { s with busyWr := true }

end Sys2Proof.Machine
end

