-- ==== Sys2Proof/Machine/Bits.lean ====
section
/-! DEFINITION. Bit slicing of naturals (spec/00_scope.md R7). -/

namespace Sys2Proof.Machine

/-- `v[i]`: bit i of a natural, weight 2^i (R7). -/
def bitAt (v i : Nat) : Nat := v / 2 ^ i % 2

/-- `v[hi:lo]` (R7). -/
def slice (v hi lo : Nat) : Nat := v / 2 ^ lo % 2 ^ (hi - lo + 1)

/-- `a ++_k b`: concatenation, where b is a k-bit field (R7). -/
def concat (a k b : Nat) : Nat := a * 2 ^ k + b

end Sys2Proof.Machine
end

