-- ==== Sys2Proof/Machine/Memory.lean ====
section
/-! DEFINITION. The word memory behind the tables and buffers: reading, writing and replacing a window, and the canonical
form every operation keeps (spec/20_memory.md R60 to R62, R66; spec/10_state.md section 2). -/

namespace Sys2Proof.Machine

/-- What an address that is not listed reads as: the reset value of every table entry and buffer word (R260). -/
def Memory.unlisted : Word := 0

/-- The canonical form: addresses strictly rising, and no entry equal to what an unlisted address reads as. -/
abbrev Memory.wf (m : Memory) : Prop :=
  m.Pairwise (fun x y => x.1 < y.1) ∧ ∀ x ∈ m, x.2 ≠ Memory.unlisted

/-- The word at an address. -/
def Memory.read : Memory → Nat → Word
  | [], _ => Memory.unlisted
  | (k, v) :: rest, a => if k = a then v else Memory.read rest a

/-- An entry put before a memory, unless it says what an unlisted address reads as. -/
def Memory.put (a : Nat) (v : Word) (m : Memory) : Memory := if v = Memory.unlisted then m else (a, v) :: m

/-- The memory after the whole word v is stored at an address (R62). -/
def Memory.write : Memory → Nat → Word → Memory
  | [], a, v => Memory.put a v []
  | (k, w) :: rest, a, v =>
    if a < k then Memory.put a v ((k, w) :: rest)
    else if a = k then Memory.put a v rest
    else (k, w) :: Memory.write rest a v

/-- Words laid out from an address upward. -/
def Memory.layout : Nat → List Word → Memory
  | _, [] => []
  | a, v :: vs => Memory.put a v (Memory.layout (a + 1) vs)

/-- The memory after the window of `size` words at `base` is replaced as a unit: the first words become those given and the
others 0 (R35, R36). -/
def Memory.replace (m : Memory) (base size : Nat) (ws : List Word) : Memory :=
  m.filter (fun x => x.1 < base) ++ Memory.layout base (ws.take size) ++ m.filter (fun x => base + size ≤ x.1)

/-- The first word address of OUT (spec/10_state.md section 2). -/
def outBase : Nat := 0x0200
/-- The first word address of IN. -/
def inBase : Nat := 0x0100
/-- The first word address of TRACE. -/
def traceBase : Nat := 0x1000
/-- Words per trace record (R95). -/
def recordWords : Nat := 8

/-- The word addresses of the permutation tables and GT, of IN, OUT and TRACE: what the word memory may list (R66). -/
def storedAddr (a : Nat) : Bool :=
  (0x0020 ≤ a && a ≤ 0x004D) || (0x0050 ≤ a && a ≤ 0x005F) || (0x0100 ≤ a && a ≤ 0x02FF) || (0x1000 ≤ a && a ≤ 0x1FFF)

end Sys2Proof.Machine
end

