-- ==== Sys2Proof/Machine/Operands.lean ====
section
/-! DEFINITION. Every operand a command reads: the operand registers, the length fields, the permutation tables and the
message (spec/10_state.md R22 to R26, R30 to R32, R34; spec/30_encoding.md R83). -/

namespace Sys2Proof.Machine

/-- The operand registers (R20 (a)). -/
inductive Operand where
  | a | b | c | p | q | key | block | len | mlen
  deriving DecidableEq, Repr

/-- `x[NAME]`: the operand register's word (R9). -/
def State.operand (s : State) : Operand → Word
  | .a => s.a
  | .b => s.b
  | .c => s.c
  | .p => s.p
  | .q => s.q
  | .key => s.key
  | .block => s.block
  | .len => s.len
  | .mlen => s.mlen

/-- `x[NAME] <- v`: all 32 bits are stored, without masking (R62). -/
def State.setOperand (s : State) (r : Operand) (v : Word) : State :=
  match r with
  | .a => { s with a := v }
  | .b => { s with b := v }
  | .c => { s with c := v }
  | .p => { s with p := v }
  | .q => { s with q := v }
  | .key => { s with key := v }
  | .block => { s with block := v }
  | .len => { s with len := v }
  | .mlen => { s with mlen := v }

/-- The permutation tables (R30, R32). -/
inductive Table where
  | p10 | p8 | ip | ipinv | ep | p4 | gt
  deriving DecidableEq, Repr

/-- The word address of a table's first entry (spec/10_state.md section 2). -/
def Table.base : Table → Nat
  | .p10 => 0x0020
  | .p8 => 0x002A
  | .ip => 0x0032
  | .ipinv => 0x003A
  | .ep => 0x0042
  | .p4 => 0x004A
  | .gt => 0x0050

/-- The number of entries a table's storage holds (R30, R32). -/
def Table.size : Table → Nat
  | .p10 => 10
  | .p8 => 8
  | .ip => 8
  | .ipinv => 8
  | .ep => 8
  | .p4 => 4
  | .gt => 16

/-- `TBL.NAME[k]`, k from 1: the entry's whole 32-bit value (R30, R83). -/
def State.entry (s : State) (t : Table) (k : Nat) : Nat := (s.mem.read (t.base + k - 1)).toNat

/-- The first n entries of a table, from entry 1 on. -/
def State.firstEntries (s : State) (t : Table) (n : Nat) : List Nat := (List.range n).map (fun j => s.entry t (j + 1))

/-- A whole table, as the list (T[1], ..., T[size]) (R30). -/
def State.table (s : State) (t : Table) : List Nat := s.firstEntries t t.size

/-- A table's entries all lie in [1, lin], lin the length of the bitstring the table is applied to (R31). -/
def entriesIn (t : List Nat) (lin : Nat) : Bool := t.all (fun e => 1 ≤ e && e ≤ lin)

/-- LX = LEN[4:0] (R25). -/
def State.lx (s : State) : Nat := slice s.len.toNat 4 0

/-- LY = LEN[12:8] (R25). -/
def State.ly (s : State) : Nat := slice s.len.toNat 12 8

/-- LEN[7:5] or LEN[31:13] is not 0 (R25, R133). -/
def State.lenReservedSet (s : State) : Bool := slice s.len.toNat 7 5 != 0 || slice s.len.toNat 31 13 != 0

/-- IN[i] (R34). -/
def State.input (s : State) (i : Nat) : Nat := (s.mem.read (inBase + i)).toNat

/-- OUT[i] (R35). -/
def State.output (s : State) (i : Nat) : Nat := (s.mem.read (outBase + i)).toNat

/-- The message IN[0], ..., IN[MLEN-1] (R34).  IN has MSG_CAP words, and the commands require MLEN <= MSG_CAP (R26). -/
def State.message (s : State) : List Nat := (List.range (min s.mlen.toNat msgCap)).map s.input

end Sys2Proof.Machine
end

