-- ==== Sys2Proof/Machine/Trace.lean ====
section
/-! DEFINITION. Trace records, their tags and their word layout (spec/30_encoding.md R95, R96). -/

namespace Sys2Proof.Machine

/-- The trace tags of R96, by name.  No other tag value is ever emitted. -/
inductive Tag where
  | gcd | modinv | modexp | perm | rotl | xor
  | rsaN | rsaPhi | rsaE | rsaD | rsaPub | rsaPriv | rsaEncEl | rsaDecEl
  | ksP10 | ksSplit | ksLs1 | ksK1 | ksLs2 | ksK2
  | feKorder | feIp | feSplit | feEp | feXk | feS0 | feS1 | feP4 | feRound | feSwap | feIpinv
  deriving DecidableEq, Repr

/-- The tag numbers (R96). -/
def Tag.code : Tag → BitVec 8
  | .gcd => 0x01 | .modinv => 0x02 | .modexp => 0x03 | .perm => 0x08 | .rotl => 0x09 | .xor => 0x0A
  | .rsaN => 0x10 | .rsaPhi => 0x11 | .rsaE => 0x12 | .rsaD => 0x13 | .rsaPub => 0x14 | .rsaPriv => 0x15
  | .rsaEncEl => 0x16 | .rsaDecEl => 0x17
  | .ksP10 => 0x20 | .ksSplit => 0x21 | .ksLs1 => 0x22 | .ksK1 => 0x23 | .ksLs2 => 0x24 | .ksK2 => 0x25
  | .feKorder => 0x28 | .feIp => 0x29 | .feSplit => 0x2A | .feEp => 0x2B | .feXk => 0x2C | .feS0 => 0x2D
  | .feS1 => 0x2E | .feP4 => 0x2F | .feRound => 0x30 | .feSwap => 0x31 | .feIpinv => 0x32

/-- A trace record `(TAG, IDX, V0, V1, V2, V3)` (R36, R95). -/
structure TraceRecord where
  /-- The 8-bit stage tag. -/
  tag : BitVec 8
  /-- The 24-bit index: an element index, a round number or 0 (R95). -/
  idx : BitVec 24
  v0 : Word
  v1 : Word
  v2 : Word
  v3 : Word
  deriving DecidableEq, Repr

/-- The all-zero record, which every record at or beyond TRACE_LEN is (R36). -/
def TraceRecord.zero : TraceRecord := { tag := 0, idx := 0, v0 := 0, v1 := 0, v2 := 0, v3 := 0 }

/-- `emit(TAG, IDX, v0, v1, v2, v3)`: the record it appends; omitted trailing values are 0 (R9). -/
def emit (t : Tag) (idx v0 : Nat) (v1 v2 v3 : Nat := 0) : TraceRecord :=
  { tag := t.code, idx := BitVec.ofNat 24 idx, v0 := word v0, v1 := word v1, v2 := word v2, v3 := word v3 }

/-- The eight words of a record: IDX above TAG, the four values, and three reserved words that are 0 (R95). -/
def TraceRecord.words (r : TraceRecord) : List Word := [r.idx ++ r.tag, r.v0, r.v1, r.v2, r.v3, 0, 0, 0]

/-- Record i of the trace buffer, read from the words 0x1000 + 8i to 0x1000 + 8i + 4 (R95). -/
def State.traceRecord (s : State) (i : Nat) : TraceRecord :=
  let w (k : Nat) : Word := s.mem.read (traceBase + recordWords * i + k)
  { tag := (w 0).extractLsb' 0 8, idx := (w 0).extractLsb' 8 24, v0 := w 1, v1 := w 2, v2 := w 3, v3 := w 4 }

end Sys2Proof.Machine
end

