-- ==== Sys2Proof/Machine/Ops.lean ====
section
/-! DEFINITION. The operations every command shares: the ordered checks, the accept, the two completions, and the one that
applies whichever of them a command ends in (spec/60_exceptions.md R232 to R237). -/

namespace Sys2Proof.Machine

/-- What a command has computed when it reaches `finish`: the results, MODINV's FOUND, the new OUT of the RSA message
commands, and the pending trace (R9, R236). -/
structure Commit where
  res0 : Nat
  res1 : Nat := 0
  res2 : Nat := 0
  res3 : Nat := 0
  /-- Only MODINV sets it (R236). -/
  found : Bool := false
  /-- OUT' of RSA_ENC and RSA_DEC; every other command leaves OUT alone (R35, R236). -/
  out : Option (List Nat) := none
  /-- The pending trace, in the order emitted. -/
  records : List TraceRecord
  deriving DecidableEq, Repr

/-- The first check that fails, in the order listed, each check given as its failing condition and its error (R232, R233). -/
def firstFailure : List (Bool × ErrorCode) → Option ErrorCode
  | [] => none
  | (fails, e) :: rest => if fails then some e else firstFailure rest

/-- A command's body runs only when every check passes; otherwise the first that fails is the command's error (R232). -/
def checked (checks : List (Bool × ErrorCode)) (body : Unit → Except ErrorCode Commit) : Except ErrorCode Commit :=
  match firstFailure checks with
  | some e => .error e
  | none => body ()

/-- A host write of CMD while BUSY = 0 accepts the word as a command (R235). -/
def State.accept (s : State) (v : Word) : State := { s with cmd := v, status := Status.accepted }

/-- OUT replaced as a whole: OUT[i] for i below the list's length, and 0 for the others (R35, R162, R167). -/
def Memory.commitOut (m : Memory) : Option (List Nat) → Memory
  | none => m
  | some out => m.replace outBase msgCap (out.map word)

/-- TRACE replaced as a whole: the records in order, and all-zero records after them (R36, R236). -/
def Memory.commitTrace (m : Memory) (records : List TraceRecord) : Memory :=
  m.replace traceBase (traceCap * recordWords) (records.flatMap TraceRecord.words)

/-- Successful completion: every result is committed in one step (R236). -/
def State.commit (s : State) (k : Commit) : State :=
  { s with
    res0 := word k.res0, res1 := word k.res1, res2 := word k.res2, res3 := word k.res3
    mem := (s.mem.commitOut k.out).commitTrace k.records
    traceLen := word k.records.length
    status := s.status.succeeded k.found }

/-- Error completion, CORE's whole exception mechanism: only STATUS changes; no program counter is saved, no mode changes
and control goes nowhere (R237, R238).  There is no return from it: the status stays until the next accept or reset
(R239). -/
def State.fail (s : State) (e : ErrorCode) : State := { s with status := s.status.failed e }

/-- The completion step of a command that ends in an error or in `finish` (R236, R237). -/
def complete (s : State) (r : Except ErrorCode Commit) : Host.Outcome State Fault Refusal :=
  match r with
  | .error e => .next (s.fail e)
  | .ok k => .next (s.commit k)

end Sys2Proof.Machine
end

