-- ==== Sys2Proof/Machine/BitOps.lean ====
section
/-! DEFINITION. The bit utilities: PERMUTE, ROTL, XOR and the functions behind them (spec/41_bitops.md). -/

namespace Sys2Proof.Machine

/-- `perm(v, L, T)`: the output's positions, from the left, are the input's positions T[1], T[2], ... (R130). -/
def perm (v l : Nat) (t : List Nat) : Nat := t.foldl (fun out e => concat out 1 (bitAt v (l - e))) 0

/-- `rotl(v, L, n)` (R131). -/
def rotl (v l n : Nat) : Nat :=
  let k := n % l
  if k = 0 then v else (v * 2 ^ k + v / 2 ^ (l - k)) % 2 ^ l

/-- `xorb(a, b)` on operands of equal length (R132). -/
def xorBits (a b : Nat) : Nat := a ^^^ b

/-- A length outside [1, BLEN_MAX] (R133). -/
def badLength (l : Nat) : Bool := l < 1 || blenMax < l

/-- R133's check 1: a reserved bit of LEN is set. -/
def checkLen (s : State) : Bool × ErrorCode := (s.lenReservedSet, .malformedInput)
/-- R133's check 2: LX out of range. -/
def checkLx (s : State) : Bool × ErrorCode := (badLength s.lx, .malformedInput)
/-- R133's check 3: LY out of range. -/
def checkLy (s : State) : Bool × ErrorCode := (badLength s.ly, .malformedInput)
/-- R133's check 4: A has bits beyond LX. -/
def checkA (s : State) : Bool × ErrorCode := (2 ^ s.lx ≤ s.a.toNat, .malformedInput)
/-- R133's check 5: B has bits beyond LY. -/
def checkB (s : State) : Bool × ErrorCode := (2 ^ s.ly ≤ s.b.toNat, .malformedInput)

/-- What PERMUTE computes: only GT[1..LY] is read and checked (R134). -/
def permuteCommand (s : State) : Except ErrorCode Commit :=
  let v := s.a.toNat
  let t := s.firstEntries .gt s.ly
  checked [checkLen s, checkLx s, checkLy s, checkA s, (!entriesIn t s.lx, .tableIndexOutOfRange)] fun _ =>
    let o := perm v s.lx t
    .ok { res0 := o, res1 := s.ly, records := [emit .perm 0 v s.lx o s.ly] }

/-- PERMUTE (R134). -/
def execPermute (s : State) : Host.Outcome State Fault Refusal := complete s (permuteCommand s)

/-- What ROTL computes: LY is ignored, and the trace records the amount as given (R135). -/
def rotlCommand (s : State) : Except ErrorCode Commit :=
  let v := s.a.toNat
  let n := s.b.toNat
  checked [checkLen s, checkLx s, checkA s] fun _ =>
    let o := rotl v s.lx n
    .ok { res0 := o, records := [emit .rotl 0 v s.lx n o] }

/-- ROTL (R135). -/
def execRotl (s : State) : Host.Outcome State Fault Refusal := complete s (rotlCommand s)

/-- What XOR computes: the five checks come before the length comparison (R136). -/
def xorCommand (s : State) : Except ErrorCode Commit :=
  let a := s.a.toNat
  let b := s.b.toNat
  checked [checkLen s, checkLx s, checkLy s, checkA s, checkB s, (s.lx != s.ly, .lengthMismatch)] fun _ =>
    let o := xorBits a b
    .ok { res0 := o, records := [emit .xor 0 a b s.lx o] }

/-- XOR (R136). -/
def execXor (s : State) : Host.Outcome State Fault Refusal := complete s (xorCommand s)

end Sys2Proof.Machine
end

