-- ==== Sys2Proof/Machine/KeySchedule.lean ====
section
/-! DEFINITION. The S-DES key schedule and SDES_KEYSCHED (spec/43_sdes_keysched.md). -/

namespace Sys2Proof.Machine

/-- Every named value of the key schedule (R181 to R183). -/
structure KeySchedule where
  p10 : Nat
  l : Nat
  r : Nat
  l1 : Nat
  r1 : Nat
  k1 : Nat
  l2 : Nat
  r2 : Nat
  k2 : Nat
  deriving DecidableEq, Repr

/-- `ks(key)`: P10, split, rotate by 1, P8 giving K1, rotate by 2 more, P8 giving K2 (R181 to R183). -/
def keySchedule (key : Nat) (tp10 tp8 : List Nat) : KeySchedule :=
  let p10 := perm key 10 tp10
  let l := slice p10 9 5
  let r := slice p10 4 0
  let l1 := rotl l 5 1
  let r1 := rotl r 5 1
  let k1 := perm (concat l1 5 r1) 10 tp8
  let l2 := rotl l1 5 2
  let r2 := rotl r1 5 2
  let k2 := perm (concat l2 5 r2) 10 tp8
  { p10, l, r, l1, r1, k1, l2, r2, k2 }

/-- The six records of the key schedule, in order (R186). -/
def KeySchedule.records (k : KeySchedule) : List TraceRecord :=
  [ emit .ksP10 0 k.p10, emit .ksSplit 0 k.l k.r, emit .ksLs1 0 k.l1 k.r1, emit .ksK1 0 k.k1,
    emit .ksLs2 0 k.l2 k.r2, emit .ksK2 0 k.k2 ]

/-- The key schedule of KEY under the tables P10 and P8. -/
def State.keySchedule (s : State) : KeySchedule :=
  Machine.keySchedule s.key.toNat (s.table .p10) (s.table .p8)

/-- KEY has a bit above its 10 (R180, R205). -/
def checkKey (s : State) : Bool × ErrorCode := (2 ^ keyLen ≤ s.key.toNat, .malformedInput)

/-- A whole table has an entry outside [1, lin] (R180, R205, R207). -/
def checkTable (s : State) (t : Table) (lin : Nat) : Bool × ErrorCode :=
  (!entriesIn (s.table t) lin, .tableIndexOutOfRange)

/-- What SDES_KEYSCHED computes (R185). -/
def sdesKeyschedCommand (s : State) : Except ErrorCode Commit :=
  checked [checkKey s, checkTable s .p10 10, checkTable s .p8 10] fun _ =>
    let k := s.keySchedule
    .ok { res0 := k.k1, res1 := k.k2, records := k.records }

/-- SDES_KEYSCHED (R185). -/
def execSdesKeysched (s : State) : Host.Outcome State Fault Refusal := complete s (sdesKeyschedCommand s)

end Sys2Proof.Machine
end

