-- ==== Sys2Proof/Machine/Feistel.lean ====
section
/-! DEFINITION. The S-DES Feistel engine: SDES_F, SDES_ENC and SDES_DEC (spec/44_sdes_feistel.md). -/

namespace Sys2Proof.Machine

/-- The row of a 4-bit group: its outer bits, bits[0] then bits[3] from the left (R200). -/
def sboxRow (g : Nat) : Nat := 2 * bitAt g 3 + bitAt g 0

/-- The column of a 4-bit group: its inner bits, bits[1] then bits[2] from the left (R200). -/
def sboxCol (g : Nat) : Nat := 2 * bitAt g 2 + bitAt g 1

/-- `S[row][col]`, row and col in 0..3 (R33, R200). -/
def sboxEntry (b : SBox) (row col : Nat) : Nat := ((b.get (Fin.ofNat 4 row)).get (Fin.ofNat 4 col)).toNat

/-- The output of `sbox(S, g)` (R200). -/
def sboxOut (b : SBox) (g : Nat) : Nat := sboxEntry b (sboxRow g) (sboxCol g)

/-- Every named value of one call of the round function (R201). -/
structure Round where
  h : Nat
  k : Nat
  ep : Nat
  x : Nat
  gl : Nat
  gr : Nat
  s : Nat
  p : Nat
  deriving DecidableEq, Repr

/-- `f(h, K)`: EP, XOR with K, the left group through S0 and the right through S1, P4 (R201).  EP is applied at every
call, in round 2 too. -/
def roundF (cfg : Config) (tep tp4 : List Nat) (h k : Nat) : Round :=
  let ep := perm h 4 tep
  let x := xorBits ep k
  let gl := slice x 7 4
  let gr := slice x 3 0
  let s := concat (sboxOut cfg.sbox0 gl) 2 (sboxOut cfg.sbox1 gr)
  { h, k, ep, x, gl, gr, s, p := perm s 4 tp4 }

/-- The five records of one call of f, with IDX the round number (R202). -/
def Round.records (f : Round) (cfg : Config) (r : Nat) : List TraceRecord :=
  [ emit .feEp r f.h f.ep,
    emit .feXk r f.ep f.k f.x,
    emit .feS0 r f.gl (sboxRow f.gl) (sboxCol f.gl) (sboxOut cfg.sbox0 f.gl),
    emit .feS1 r f.gr (sboxRow f.gr) (sboxCol f.gr) (sboxOut cfg.sbox1 f.gr),
    emit .feP4 r f.s f.p ]

/-- The round function with the machine's EP, P4 and S-boxes. -/
def State.roundF (s : State) (h k : Nat) : Round := Machine.roundF s.cfg (s.table .ep) (s.table .p4) h k

/-- Every named value of the two-round datapath (R206). -/
structure Feistel where
  block : Nat
  ip : Nat
  l0 : Nat
  r0 : Nat
  f1 : Round
  l1 : Nat
  f2 : Round
  l2 : Nat
  pre : Nat
  out : Nat
  deriving DecidableEq, Repr

/-- `feistel(block, KA, KB)`: IP, two rounds with a swap between them, and IPINV on L2' ++ L1' (R206). -/
def State.feistel (s : State) (block ka kb : Nat) : Feistel :=
  let ip := perm block 8 (s.table .ip)
  let l0 := slice ip 7 4
  let r0 := slice ip 3 0
  let f1 := s.roundF r0 ka
  let l1 := xorBits l0 f1.p
  let f2 := s.roundF l1 kb
  let l2 := xorBits r0 f2.p
  let pre := concat l2 4 l1
  { block, ip, l0, r0, f1, l1, f2, l2, pre, out := perm pre 8 (s.table .ipinv) }

/-- The sixteen records of the datapath, in order (R206, R212). -/
def Feistel.records (t : Feistel) (cfg : Config) : List TraceRecord :=
  [emit .feIp 0 t.block t.ip, emit .feSplit 0 t.l0 t.r0] ++ t.f1.records cfg 1 ++
  [emit .feRound 1 t.l0 t.f1.p t.l1, emit .feSwap 1 t.r0 t.l1] ++ t.f2.records cfg 2 ++
  [emit .feRound 2 t.r0 t.f2.p t.l2, emit .feIpinv 0 t.pre t.out]

/-- The eight checks of SDES_ENC and SDES_DEC, in order (R205). -/
def sdesChecks (s : State) : List (Bool × ErrorCode) :=
  [ checkKey s, (2 ^ blockLen ≤ s.block.toNat, .malformedInput), checkTable s .p10 10, checkTable s .p8 10,
    checkTable s .ip 8, checkTable s .ipinv 8, checkTable s .ep 4, checkTable s .p4 4 ]

/-- What SDES_F computes; its records have IDX = 0 (R207). -/
def sdesFCommand (s : State) : Except ErrorCode Commit :=
  checked [ (2 ^ 4 ≤ s.a.toNat, .malformedInput), (2 ^ 8 ≤ s.b.toNat, .malformedInput),
      checkTable s .ep 4, checkTable s .p4 4 ] fun _ =>
    let f := s.roundF s.a.toNat s.b.toNat
    .ok { res0 := f.p, records := f.records s.cfg 0 }

/-- SDES_F (R207). -/
def execSdesF (s : State) : Host.Outcome State Fault Refusal := complete s (sdesFCommand s)

/-- What SDES_ENC computes: the key schedule, then the datapath with (K1, K2) (R210). -/
def sdesEncCommand (s : State) : Except ErrorCode Commit :=
  checked (sdesChecks s) fun _ =>
    let k := s.keySchedule
    let t := s.feistel s.block.toNat k.k1 k.k2
    .ok { res0 := t.out, res1 := k.k1, res2 := k.k2
          records := k.records ++ [emit .feKorder 0 k.k1 k.k2 0] ++ t.records s.cfg }

/-- SDES_ENC (R210). -/
def execSdesEnc (s : State) : Host.Outcome State Fault Refusal := complete s (sdesEncCommand s)

/-- What SDES_DEC computes: the datapath with (K2, K1); K1 and K2 are reported in schedule order (R211). -/
def sdesDecCommand (s : State) : Except ErrorCode Commit :=
  checked (sdesChecks s) fun _ =>
    let k := s.keySchedule
    let t := s.feistel s.block.toNat k.k2 k.k1
    .ok { res0 := t.out, res1 := k.k1, res2 := k.k2
          records := k.records ++ [emit .feKorder 0 k.k2 k.k1 1] ++ t.records s.cfg }

/-- SDES_DEC (R211). -/
def execSdesDec (s : State) : Host.Outcome State Fault Refusal := complete s (sdesDecCommand s)

end Sys2Proof.Machine
end

