-- ==== Sys2Proof/Machine/Bus.lean ====
section
/-! DEFINITION. The host bus and the reset input: what each word address is, what a read returns, what a write does
(spec/20_memory.md R60 to R66; spec/70_reset_and_hazards.md R260, R270, R271). -/

namespace Sys2Proof.Machine

/-- What a word address names (spec/10_state.md section 2, R66). -/
inductive Target where
  /-- CMD, 0x0000. -/
  | cmd
  /-- STATUS, 0x0001. -/
  | status
  /-- An operand register, 0x0002 to 0x000A. -/
  | operand (r : Operand)
  /-- RES0 to RES3, 0x0010 to 0x0013. -/
  | result (i : Fin 4)
  /-- TRACE_LEN, 0x0018. -/
  | traceLen
  /-- A read-write word of the word memory: a table entry, a GT entry or a word of IN. -/
  | ram
  /-- A read-only word of the word memory: a word of OUT or TRACE. -/
  | buffer
  /-- SBOX0[r][c], 0x0060 + 4r + c. -/
  | sbox0 (r c : Nat)
  /-- SBOX1[r][c], 0x0070 + 4r + c. -/
  | sbox1 (r c : Nat)
  /-- No register. -/
  | unmapped
  deriving DecidableEq, Repr

/-- The registers below the tables, 0x0000 to 0x001F; the addresses not listed are unmapped (spec/10_state.md section 2,
R66). -/
def registerTarget : Nat → Target
  | 0x00 => .cmd
  | 0x01 => .status
  | 0x02 => .operand .a
  | 0x03 => .operand .b
  | 0x04 => .operand .c
  | 0x05 => .operand .p
  | 0x06 => .operand .q
  | 0x07 => .operand .key
  | 0x08 => .operand .block
  | 0x09 => .operand .len
  | 0x0A => .operand .mlen
  | 0x10 => .result 0
  | 0x11 => .result 1
  | 0x12 => .result 2
  | 0x13 => .result 3
  | 0x18 => .traceLen
  | _ => .unmapped

/-- The register map, by word address, upward: the registers, the permutation tables, GT, SBOX0, SBOX1, IN, OUT and TRACE,
with the unmapped gaps between them (spec/10_state.md section 2, R66). -/
def target (addr : Addr) : Target :=
  let n := addr.toNat
  if n < 0x0020 then registerTarget n
  else if n ≤ 0x004D then .ram
  else if n < 0x0050 then .unmapped
  else if n ≤ 0x005F then .ram
  else if n ≤ 0x006F then .sbox0 ((n - 0x0060) / 4) ((n - 0x0060) % 4)
  else if n ≤ 0x007F then .sbox1 ((n - 0x0070) / 4) ((n - 0x0070) % 4)
  else if n < 0x0100 then .unmapped
  else if n ≤ 0x01FF then .ram
  else if n ≤ 0x02FF then .buffer
  else if n < 0x1000 then .unmapped
  else if n ≤ 0x1FFF then .buffer
  else .unmapped

/-- RES0 to RES3 by number (R29). -/
def State.result (s : State) : Fin 4 → Word
  | 0 => s.res0
  | 1 => s.res1
  | 2 => s.res2
  | 3 => s.res3

/-- `MemRead(addr, 4)`: the committed word at an address, while a command runs too; 0 at an unmapped address (R64, R65,
R271). -/
def busRead (s : State) (addr : Addr) : Word :=
  match target addr with
  | .cmd => s.cmd
  | .status => s.status.toWord
  | .operand r => s.operand r
  | .result i => s.result i
  | .traceLen => s.traceLen
  | .ram => s.mem.read addr.toNat
  | .buffer => s.mem.read addr.toNat
  | .sbox0 r c => word (sboxEntry s.cfg.sbox0 r c)
  | .sbox1 r c => word (sboxEntry s.cfg.sbox1 r c)
  | .unmapped => 0

/-- A write that arrives while no command runs: a write of CMD is an accept, a read-write register or word takes the whole
value, and a read-only or unmapped address ignores it (R27, R62, R64, R65). -/
def idleWrite (s : State) (addr : Addr) (v : Word) : State :=
  match target addr with
  | .cmd => s.accept v
  | .operand r => s.setOperand r v
  | .ram => { s with mem := s.mem.write addr.toNat v }
  | .status => s
  | .result _ => s
  | .traceLen => s
  | .buffer => s
  | .sbox0 _ _ => s
  | .sbox1 _ _ => s
  | .unmapped => s

/-- `MemWrite(addr, 4, v)`: while a command runs the write is dropped, whatever its address, and sets BUSY_WR (R270). -/
def busWrite (s : State) (addr : Addr) (v : Word) : State :=
  if s.status.busy then { s with status := s.status.dropped } else idleWrite s addr v

/-- The turns to come, with the one that is being taken removed. -/
def State.withTurns (s : State) (turns : List Turn) : State :=
  { s with outside := { s.outside with turns := turns } }

/-- The host is told the word at an address.  No state of CORE changes (R64). -/
def hostRead (s : State) (addr : Addr) : State :=
  { s with outside := { s.outside with reads := (addr, busRead s addr) :: s.outside.reads } }

/-- One transaction of the host (R60). -/
def hostTurn (s : State) : Transaction → State
  | .read addr => hostRead s addr
  | .write addr v => busWrite s addr v

/-- The reset input: every piece of state takes its reset value in one step, a running command is abandoned, and the ROM
and the parameters stay (R260, R261).  What stands outside CORE is not reset. -/
def resetTurn (s : State) : State := { State.resetWith s.cfg with outside := s.outside }

end Sys2Proof.Machine
end

