-- ==== Sys2Proof/Syntax.lean ====
section
/-! DEFINITION. The command set of CORE: one constructor per row of spec/opcode_table.json (spec/30_encoding.md R81). -/

namespace Sys2Proof

/-- The 13 commands of R81.  A command has no field: no register specifier, no immediate, no mode bit (R80); every operand
comes from the fixed operand registers, tables and buffers. -/
inductive Instr where
  /-- GCD, OP 0x01: `gcd(a, b)` (R120). -/
  | gcd
  /-- MODINV, OP 0x02: modular inverse by search (R121). -/
  | modinv
  /-- MODEXP, OP 0x03: fast modular exponentiation (R122). -/
  | modexp
  /-- PERMUTE, OP 0x08: the generic table applied to A (R134). -/
  | permute
  /-- ROTL, OP 0x09: A rotated left by B (R135). -/
  | rotl
  /-- XOR, OP 0x0A: bitwise XOR of two bitstrings (R136). -/
  | xor
  /-- RSA_KEYGEN, OP 0x10 (R155). -/
  | rsaKeygen
  /-- RSA_ENC, OP 0x11 (R160). -/
  | rsaEnc
  /-- RSA_DEC, OP 0x12 (R165). -/
  | rsaDec
  /-- SDES_KEYSCHED, OP 0x20 (R185). -/
  | sdesKeysched
  /-- SDES_ENC, OP 0x21 (R210). -/
  | sdesEnc
  /-- SDES_DEC, OP 0x22 (R211). -/
  | sdesDec
  /-- SDES_F, OP 0x23: the round function alone (R207). -/
  | sdesF
  deriving DecidableEq, Repr

end Sys2Proof
end

