-- ==== Sys2Proof/WellFormed.lean ====
section
/-! DEFINITION. Well-formed commands and command words (spec/30_encoding.md R80, R81, R84).  A command has no operand
field, so every term of Instr is well-formed; the checks are on the command WORD. -/

namespace Sys2Proof

/-- Every command is well-formed: R80 gives it no field that could be out of range. -/
def Instr.wellFormed : Instr → Bool
  | .gcd | .modinv | .modexp | .permute | .rotl | .xor | .rsaKeygen | .rsaEnc | .rsaDec
  | .sdesKeysched | .sdesEnc | .sdesDec | .sdesF => true

/-- The opcodes R81 lists (R84 repeats the list). -/
def listedOpcodes : List Nat := [0x01, 0x02, 0x03, 0x08, 0x09, 0x0A, 0x10, 0x11, 0x12, 0x20, 0x21, 0x22, 0x23]

/-- First check on a command word: RSVD = CMD[31:8] is 0 (R80, R84). -/
def reservedClear (w : Word) : Bool := w.toNat / 2 ^ 8 == 0

/-- Second check on a command word: OP = CMD[7:0] is one of R81's opcodes (R84). -/
def opcodeListed (w : Word) : Bool := listedOpcodes.contains (w.toNat % 2 ^ 8)

/-- A legal command word passes both checks; every other word is an illegal command (R84). -/
def legalCommandWord (w : Word) : Bool := reservedClear w && opcodeListed w

end Sys2Proof
end

