-- ==== Sys2Proof/Decode.lean ====
section
/-! DEFINITION. The decoder of command words, total on every 32-bit word and rejecting by name, and the encoder
(spec/30_encoding.md R80, R81, R84, R86). -/

namespace Sys2Proof

/-- Why a command word is illegal (R84).  Either way the command completes with IllegalCommand. -/
inductive DecodeError where
  /-- RSVD = CMD[31:8] is not 0. -/
  | reservedBitsSet
  /-- OP is not in R81 (OP 0x00 among them). -/
  | unknownOpcode
  deriving DecidableEq, Repr

/-- OP, bits 7:0 of a command word (R80). -/
def opField (w : Word) : BitVec 8 := w.extractLsb' 0 8

/-- RSVD, bits 31:8 of a command word (R80). -/
def rsvdField (w : Word) : BitVec 24 := w.extractLsb' 8 24

/-- The opcode map, read from OP to the command (R81).  No other value has a meaning (R85). -/
def decodeOpcode (op : BitVec 8) : Option Instr :=
  match op.toNat with
  | 0x01 => some .gcd
  | 0x02 => some .modinv
  | 0x03 => some .modexp
  | 0x08 => some .permute
  | 0x09 => some .rotl
  | 0x0A => some .xor
  | 0x10 => some .rsaKeygen
  | 0x11 => some .rsaEnc
  | 0x12 => some .rsaDec
  | 0x20 => some .sdesKeysched
  | 0x21 => some .sdesEnc
  | 0x22 => some .sdesDec
  | 0x23 => some .sdesF
  | _ => none

/-- The command a 32-bit command word stands for, or the reason it is illegal (R80, R84, R86). -/
def decode (w : Word) : Except DecodeError Instr :=
  if rsvdField w = 0 then
    match decodeOpcode (opField w) with
    | some i => .ok i
    | none => .error .unknownOpcode
  else .error .reservedBitsSet

/-- The opcode of each command, by R81's rows. -/
def opcode : Instr → BitVec 8
  | .gcd => 0x01
  | .modinv => 0x02
  | .modexp => 0x03
  | .permute => 0x08
  | .rotl => 0x09
  | .xor => 0x0A
  | .rsaKeygen => 0x10
  | .rsaEnc => 0x11
  | .rsaDec => 0x12
  | .sdesKeysched => 0x20
  | .sdesEnc => 0x21
  | .sdesDec => 0x22
  | .sdesF => 0x23

/-- The one command word of a command: RSVD = 0 above OP (R80, R86). -/
def encode (i : Instr) : Word := (0 : BitVec 24) ++ opcode i

/-- The command word a row of spec/opcode_table.json gives: its `nbits` bits, the bits above them 0. -/
def tableWord (nbits w : Nat) : Nat := w % 2 ^ nbits

/-- What the decoder reads from a table row's bits.  A command is exactly one 32-bit word (R86): more bits than that are
no command. -/
def decodeTableWord (nbits w : Nat) : Option Instr :=
  if tableWord nbits w < 2 ^ 32 then (decode (word (tableWord nbits w))).toOption else none

end Sys2Proof
end

