-- ==== Sys2Proof/Machine/Numeric.lean ====
section
/-! DEFINITION. The number engine: GCD, MODINV, MODEXP and the functions behind them (spec/40_numeric.md).  All arithmetic
is exact on naturals (R116). -/

namespace Sys2Proof.Machine

/-- Euclid's loop: (a, b) <- (b, a mod b) until b = 0 (R110).  The first argument bounds the passes. -/
def euclidLoop : Nat → Nat → Nat → Nat
  | 0, a, _ => a
  | n + 1, a, b => if b = 0 then a else euclidLoop n b (a % b)

/-- `gcd(a, b)` (R110).  The remainder strictly decreases, so b passes are enough. -/
def euclid (a b : Nat) : Nat := euclidLoop b a b

/-- The brute-force search of R112, upward from a candidate d: the first d below phi with (e * d) mod phi = 1.  The first
argument bounds the candidates. -/
def minvSearchFrom : Nat → Nat → Nat → Nat → Option Nat
  | 0, _, _, _ => none
  | n + 1, d, e, phi =>
    if d < phi then
      if e * d % phi = 1 then some d else minvSearchFrom n (d + 1) e phi
    else none

/-- `minv(e, phi)` as R112 writes it: the search over d in [1, phi), `none` for "not found". -/
def minvSearch (e phi : Nat) : Option Nat := minvSearchFrom phi 1 e phi

/-- Euclid's loop on (r0, r1) with coefficients modulo phi beside it: r0 = t0 * e and r1 = t1 * e modulo phi at every pass.
It answers the last nonzero remainder and its coefficient. -/
def bezoutLoop : Nat → Nat → Nat → Nat → Nat → Nat → Nat × Nat
  | 0, _, r0, t0, _, _ => (r0, t0)
  | n + 1, phi, r0, t0, r1, t1 =>
    if r1 = 0 then (r0, t0)
    else bezoutLoop n phi r1 t1 (r0 % r1) ((t0 + (phi - r0 / r1 * t1 % phi)) % phi)

/-- `minv(e, phi)` in closed form, which R113 allows in place of the search: the coefficient of e in Euclid's algorithm when
the greatest common divisor is 1 and phi >= 2, `none` for "not found". -/
def minv (e phi : Nat) : Option Nat :=
  if phi ≤ 1 then none
  else
    match bezoutLoop phi phi phi 0 (e % phi) 1 with
    | (g, t) => if g = 1 then some t else none

/-- The square-and-multiply loop of R114.  The first argument bounds the passes. -/
def powmodLoop : Nat → Nat → Nat → Nat → Nat → Nat
  | 0, r, _, _, _ => r
  | n + 1, r, s, x, m =>
    if x = 0 then r
    else powmodLoop n (if bitAt x 0 = 1 then r * s % m else r) (s * s % m) (x / 2) m

/-- `powmod(b, x, m)`, for m >= 1 (R114).  Each pass halves x, so x passes are enough. -/
def powmod (b x m : Nat) : Nat := powmodLoop x (1 % m) (b % m) x m

/-- What GCD computes (R120). -/
def gcdCommand (s : State) : Except ErrorCode Commit :=
  let a := s.a.toNat
  let b := s.b.toNat
  let g := euclid a b
  .ok { res0 := g, records := [emit .gcd 0 a b g] }

/-- GCD (R120). -/
def execGcd (s : State) : Host.Outcome State Fault Refusal := complete s (gcdCommand s)

/-- What MODINV computes: "not found" is a result, RES0 = 0 with FOUND = 0, and no error (R121). -/
def modinvCommand (s : State) : Except ErrorCode Commit :=
  let e := s.a.toNat
  let phi := s.b.toNat
  let d := minv e phi
  .ok { res0 := d.getD 0, found := d.isSome, records := [emit .modinv 0 e phi (d.getD 0) (flag d.isSome)] }

/-- MODINV (R121). -/
def execModinv (s : State) : Host.Outcome State Fault Refusal := complete s (modinvCommand s)

/-- What MODEXP computes; a modulus of 0 is MalformedInput (R122). -/
def modexpCommand (s : State) : Except ErrorCode Commit :=
  let base := s.a.toNat
  let exponent := s.b.toNat
  let modulus := s.c.toNat
  checked [(modulus == 0, .malformedInput)] fun _ =>
    let r := powmod base exponent modulus
    .ok { res0 := r, records := [emit .modexp 0 base exponent modulus r] }

/-- MODEXP (R122). -/
def execModexp (s : State) : Host.Outcome State Fault Refusal := complete s (modexpCommand s)

end Sys2Proof.Machine
end

