-- ==== Sys2Proof/Machine/Rsa.lean ====
section
/-! DEFINITION. The RSA engine: RSA_KEYGEN, RSA_ENC, RSA_DEC and key generation (spec/42_rsa.md).  There is no primality
check, and keys are derived again by every command (R157, R158). -/

namespace Sys2Proof.Machine

/-- What key generation derives from p and q (R151 to R153). -/
structure KeyPair where
  n : Nat
  phi : Nat
  e : Nat
  d : Nat
  deriving DecidableEq, Repr

/-- The public-exponent search, upward from a candidate e, giving up at phi (R152).  The first argument bounds the
candidates. -/
def exponentFrom : Nat → Nat → Nat → Option Nat
  | 0, _, _ => none
  | n + 1, e, phi =>
    if phi ≤ e then none
    else if euclid e phi = 1 then some e
    else exponentFrom n (e + 1) phi

/-- The smallest e in [2, phi) with gcd(e, phi) = 1 (R152). -/
def publicExponent (phi : Nat) : Option Nat := exponentFrom phi 2 phi

/-- Key generation: DegenerateKey when p or q is 0, when no e is below phi, or when e has no inverse (R151 to R153). -/
def keyGen (p q : Nat) : Except ErrorCode KeyPair :=
  if p = 0 ∨ q = 0 then .error .degenerateKey
  else
    let phi := (p - 1) * (q - 1)
    match publicExponent phi with
    | none => .error .degenerateKey
    | some e =>
      match minv e phi with
      | none => .error .degenerateKey
      | some d => .ok { n := p * q, phi := phi, e := e, d := d }

/-- The six key-generation records, in order (R154). -/
def KeyPair.records (k : KeyPair) (p q : Nat) : List TraceRecord :=
  [ emit .rsaN 0 p q k.n, emit .rsaPhi 0 (p - 1) (q - 1) k.phi, emit .rsaE 0 k.e k.phi 1,
    emit .rsaD 0 k.d k.e k.phi, emit .rsaPub 0 k.e k.n, emit .rsaPriv 0 k.d k.n ]

/-- R150's check 1: p or q is not below 2^PQ_W. -/
def checkPq (s : State) : Bool × ErrorCode :=
  (2 ^ pqWidth ≤ s.p.toNat || 2 ^ pqWidth ≤ s.q.toNat, .malformedInput)
/-- R150's check 2: MLEN is above MSG_CAP. -/
def checkMlen (s : State) : Bool × ErrorCode := (msgCap < s.mlen.toNat, .malformedInput)
/-- R150's check 3: some code point of the message is above CP_MAX. -/
def checkMessage (s : State) : Bool × ErrorCode := (s.message.any (fun m => s.cfg.cpMax < m), .malformedInput)

/-- A command that derives the keys, records them first, and goes on with them. -/
def withKeys (s : State) (body : KeyPair → Except ErrorCode Commit) : Except ErrorCode Commit :=
  match keyGen s.p.toNat s.q.toNat with
  | .error e => .error e
  | .ok k => body k

/-- The message's elements with their indices, in ascending order (R161). -/
def State.indexedMessage (s : State) : List (Nat × Nat) := (List.range s.message.length).zip s.message

/-- What RSA_KEYGEN computes (R155). -/
def rsaKeygenCommand (s : State) : Except ErrorCode Commit :=
  checked [checkPq s] fun _ => withKeys s fun k =>
    .ok { res0 := k.n, res1 := k.phi, res2 := k.e, res3 := k.d, records := k.records s.p.toNat s.q.toNat }

/-- RSA_KEYGEN (R155). -/
def execRsaKeygen (s : State) : Host.Outcome State Fault Refusal := complete s (rsaKeygenCommand s)

/-- What RSA_ENC computes: c = m^e mod n for every element, in index order, after the key generation (R160 to R162). -/
def rsaEncCommand (s : State) : Except ErrorCode Commit :=
  checked [checkPq s, checkMlen s, checkMessage s] fun _ => withKeys s fun k =>
    .ok {
      res0 := k.n, res1 := k.phi, res2 := k.e, res3 := k.d
      out := some (s.message.map fun m => powmod m k.e k.n)
      records := k.records s.p.toNat s.q.toNat ++
        s.indexedMessage.map fun x => emit .rsaEncEl x.1 x.2 k.e k.n (powmod x.2 k.e k.n) }

/-- RSA_ENC (R160). -/
def execRsaEnc (s : State) : Host.Outcome State Fault Refusal := complete s (rsaEncCommand s)

/-- What RSA_DEC computes: m = c^d mod n for every element, in index order; an m above CP_MAX is InvalidCodepoint, and
nothing is kept (R165 to R167). -/
def rsaDecCommand (s : State) : Except ErrorCode Commit :=
  checked [checkPq s, checkMlen s] fun _ => withKeys s fun k =>
    checked [(s.message.any (fun c => s.cfg.cpMax < powmod c k.d k.n), .invalidCodepoint)] fun _ =>
      .ok {
        res0 := k.n, res1 := k.phi, res2 := k.e, res3 := k.d
        out := some (s.message.map fun c => powmod c k.d k.n)
        records := k.records s.p.toNat s.q.toNat ++
          s.indexedMessage.map fun x => emit .rsaDecEl x.1 x.2 k.d k.n (powmod x.2 k.d k.n) }

/-- RSA_DEC (R165). -/
def execRsaDec (s : State) : Host.Outcome State Fault Refusal := complete s (rsaDecCommand s)

end Sys2Proof.Machine
end

