-- ==== Sys2Proof/Machine/Dispatch.lean ====
section
/-! DEFINITION. The engine's completion step for each command, one arm per constructor (spec/30_encoding.md R81). -/

namespace Sys2Proof.Machine

/-- What the accepted command does when the engine completes it (R266). -/
def exec (i : Instr) (s : State) : Host.Outcome State Fault Refusal :=
  match i with
  | .gcd => Sys2Proof.Machine.execGcd s
  | .modinv => Sys2Proof.Machine.execModinv s
  | .modexp => Sys2Proof.Machine.execModexp s
  | .permute => Sys2Proof.Machine.execPermute s
  | .rotl => Sys2Proof.Machine.execRotl s
  | .xor => Sys2Proof.Machine.execXor s
  | .rsaKeygen => Sys2Proof.Machine.execRsaKeygen s
  | .rsaEnc => Sys2Proof.Machine.execRsaEnc s
  | .rsaDec => Sys2Proof.Machine.execRsaDec s
  | .sdesKeysched => Sys2Proof.Machine.execSdesKeysched s
  | .sdesEnc => Sys2Proof.Machine.execSdesEnc s
  | .sdesDec => Sys2Proof.Machine.execSdesDec s
  | .sdesF => Sys2Proof.Machine.execSdesF s

end Sys2Proof.Machine
end

