-- ==== Sys2Proof/Machine/Engine.lean ====
section
/-! DEFINITION. The engine's turn: the accepted command completes in one atomic step
(spec/70_reset_and_hazards.md R266; spec/30_encoding.md R84). -/

namespace Sys2Proof.Machine

/-- The engine's completion step, enabled exactly when BUSY = 1: the word in CMD is decoded and its command completed on
the state as it stands; an illegal word completes with IllegalCommand and reads no operand (R84, R234, R266).  When no
command is running the engine does nothing (R245). -/
def engineTurn (s : State) : Host.Outcome State Fault Refusal :=
  if s.status.busy then
    match decode s.cmd with
    | .ok i => exec i s
    | .error _ => .next (s.fail .illegalCommand)
  else .next s

end Sys2Proof.Machine
end

