-- ==== Sys2Proof/Machine/Step.lean ====
section
/-! DEFINITION. One step of the machine: the next agent takes its turn (spec/00_scope.md R11;
spec/20_memory.md R67; spec/70_reset_and_hazards.md R266). -/

namespace Sys2Proof.Machine

/-- One step.  The turns to come say which agent moves; when none is listed the engine has the turn, so that an accepted
command completes at last (the weak fairness R266 assumes). -/
def step (s : State) : Host.Outcome State Fault Refusal :=
  match s.outside.turns with
  | [] => engineTurn s
  | .engine :: rest => engineTurn (s.withTurns rest)
  | .host t :: rest => .next (hostTurn (s.withTurns rest) t)
  | .reset :: rest => .next (resetTurn (s.withTurns rest))

/-- The state in which the command word of a table row has been accepted (R235) and the engine has the next turn, so that
the next step runs exactly that command.  CORE has no program counter and no stored program (R21): CMD is where a command
stands. -/
def State.withFetchWord (s : State) (nbits w : Nat) : State :=
  (s.accept (word (tableWord nbits w))).withTurns (.engine :: s.outside.turns)

end Sys2Proof.Machine
end

