-- ==== Sys2Proof/Machine/HostOps.lean ====
section
/-! DEFINITION. The host notation of spec/30_encoding.md R100 and R101: the names of the register map, the operations and
pseudo-operations of a host program, and the bus transactions they stand for.  CORE stores no program (R21): a host program
is a sequence of turns that comes from outside. -/

namespace Sys2Proof.Machine

/-- The names of the register map and of buffer words (R100; spec/10_state.md section 2). -/
inductive HostName where
  | cmd
  | status
  | operand (r : Operand)
  | res (i : Fin 4)
  | traceLen
  /-- `T[k]`, entry k from 1. -/
  | entry (t : Table) (k : Nat)
  /-- `SBOX0[r][c]`. -/
  | sbox0 (r c : Fin 4)
  /-- `SBOX1[r][c]`. -/
  | sbox1 (r c : Fin 4)
  /-- `IN[i]`, from 0. -/
  | input (i : Nat)
  /-- `OUT[i]`, from 0. -/
  | output (i : Nat)
  /-- `TRACE[i].w`: word w of record i. -/
  | trace (i w : Nat)
  deriving DecidableEq, Repr

/-- A name that the register map has: its index is within its table or buffer. -/
def HostName.wellFormed : HostName → Bool
  | .cmd => true
  | .status => true
  | .operand _ => true
  | .res _ => true
  | .traceLen => true
  | .entry t k => 1 ≤ k && k ≤ t.size
  | .sbox0 _ _ => true
  | .sbox1 _ _ => true
  | .input i => i < msgCap
  | .output i => i < msgCap
  | .trace i w => i < traceCap && w < recordWords

/-- The word address of an operand register (spec/10_state.md section 2). -/
def Operand.address : Operand → Nat
  | .a => 0x0002
  | .b => 0x0003
  | .c => 0x0004
  | .p => 0x0005
  | .q => 0x0006
  | .key => 0x0007
  | .block => 0x0008
  | .len => 0x0009
  | .mlen => 0x000A

/-- `addr(NAME)`, as a number (R100; spec/10_state.md section 2). -/
def HostName.address : HostName → Nat
  | .cmd => 0x0000
  | .status => 0x0001
  | .operand r => r.address
  | .res i => 0x0010 + i.val
  | .traceLen => 0x0018
  | .entry t k => t.base + k - 1
  | .sbox0 r c => 0x0060 + 4 * r.val + c.val
  | .sbox1 r c => 0x0070 + 4 * r.val + c.val
  | .input i => inBase + i
  | .output i => outBase + i
  | .trace i w => traceBase + recordWords * i + w

/-- `addr(NAME)` (R100). -/
def HostName.addr (n : HostName) : Addr := BitVec.ofNat 16 n.address

/-- The operations and pseudo-operations of the host notation (R100, R101).  A `wait` carries the number of its reads that
return BUSY = 1, which nothing fixes (R266). -/
inductive HostOp where
  /-- `wr NAME, v`. -/
  | wr (n : HostName) (v : Word)
  /-- `rd NAME`. -/
  | rd (n : HostName)
  /-- `cmd MNEMONIC`. -/
  | cmd (i : Instr)
  /-- `wait`. -/
  | wait (polls : Nat)
  /-- `run MNEMONIC`. -/
  | run (i : Instr) (polls : Nat)
  /-- `ldt T, v1, ..., vk`. -/
  | ldt (t : Table) (vs : List Word)
  /-- `ldm IN, v0, ..., vk`. -/
  | ldm (vs : List Word)
  deriving DecidableEq, Repr

/-- The write of one name (R100). -/
def writeTurn (n : HostName) (v : Word) : Turn := .host (.write n.addr v)

/-- `cmd MNEMONIC`: a write of the command word to CMD (R100). -/
def cmdTurns (i : Instr) : List Turn := [writeTurn .cmd (encode i)]

/-- `wait`: reads of STATUS that return BUSY = 1, the engine's completion, and the read that returns BUSY = 0 (R101 (a)). -/
def waitTurns (polls : Nat) : List Turn :=
  List.replicate polls (.host (.read HostName.status.addr)) ++ [.engine, .host (.read HostName.status.addr)]

/-- Writes of consecutive entries T[k], T[k+1], ... (R101 (c)). -/
def tableTurns (t : Table) : Nat → List Word → List Turn
  | _, [] => []
  | k, v :: vs => writeTurn (.entry t k) v :: tableTurns t (k + 1) vs

/-- Writes of consecutive words IN[i], IN[i+1], ... (R101 (d)). -/
def inputTurns : Nat → List Word → List Turn
  | _, [] => []
  | i, v :: vs => writeTurn (.input i) v :: inputTurns (i + 1) vs

/-- The turns an operation stands for (R100, R101). -/
def HostOp.turns : HostOp → List Turn
  | .wr n v => [writeTurn n v]
  | .rd n => [.host (.read n.addr)]
  | .cmd i => cmdTurns i
  | .wait polls => waitTurns polls
  | .run i polls => cmdTurns i ++ waitTurns polls
  | .ldt t vs => tableTurns t 1 vs
  | .ldm vs => inputTurns 0 vs ++ [writeTurn (.operand .mlen) (word vs.length)]

/-- The machine with a host program to come. -/
def State.withProgram (s : State) (ops : List HostOp) : State := s.withTurns (ops.flatMap HostOp.turns)

end Sys2Proof.Machine
end

