-- ==== Sys2Proof/Safety.lean ====
section
/-! DEFINITION. What every reachable state of CORE satisfies: the legal status combinations, the canonical form of the word
memory, and the shape of the trace buffer (spec/10_state.md R28, R36; spec/20_memory.md R66; spec/30_encoding.md R95, R96). -/

namespace Sys2Proof.Machine

/-- The legal combinations of STATUS: idle after reset, busy, done without error, done with error (R28). -/
def Status.legal (s : Status) : Prop :=
  s = Status.reset ∨
  (s.busy = true ∧ s.done = false ∧ s.err = false ∧ s.found = false ∧ s.errCode = 0) ∨
  (s.busy = false ∧ s.done = true ∧ s.err = false ∧ s.errCode = 0) ∨
  (s.busy = false ∧ s.done = true ∧ s.err = true ∧ s.found = false ∧ 1 ≤ s.errCode.toNat ∧ s.errCode.toNat ≤ 6)

/-- The largest number of records any command leaves: 6 + 256 (R36, R97). -/
def maxRecords : Nat := 262

/-- The invariant of the machine. -/
structure State.Inv (s : State) : Prop where
  /-- STATUS holds a legal combination (R28). -/
  status : s.status.legal
  /-- The word memory is in canonical form. -/
  canonical : Memory.wf s.mem
  /-- The word memory lists only addresses of tables and buffers: unmapped addresses hold nothing (R66). -/
  mapped : ∀ x ∈ s.mem, storedAddr x.1 = true
  /-- No trace is longer than 262 records (R36). -/
  traceLen : s.traceLen.toNat ≤ maxRecords
  /-- Words 5, 6 and 7 of every record are 0 (R95). -/
  reserved : ∀ i < traceCap, ∀ k < recordWords, 5 ≤ k → s.mem.read (traceBase + recordWords * i + k) = 0
  /-- Every record at or beyond TRACE_LEN is all-zero (R36). -/
  beyond : ∀ i < traceCap, s.traceLen.toNat ≤ i → s.traceRecord i = TraceRecord.zero
  /-- Every valid record carries one of R96's tags. -/
  tags : ∀ i < s.traceLen.toNat, ∃ t : Tag, (s.traceRecord i).tag = t.code

end Sys2Proof.Machine
end

