-- ==== Sys2Proof/Certificates/Slice0/Obligations.lean ====
section
/-! DEFINITION. The statements about CORE, from the numbered rules of its spec, and the few words they are written in. -/

namespace Sys2Proof.Claims

open Sys2Proof.Machine

/-- A command word that R84 calls illegal: RSVD is not 0, or OP is not in R81. -/
def illegalWord (w : Word) : Prop :=
  w.toNat / 2 ^ 8 ≠ 0 ∨
  w.toNat % 2 ^ 8 ∉ [0x01, 0x02, 0x03, 0x08, 0x09, 0x0A, 0x10, 0x11, 0x12, 0x20, 0x21, 0x22, 0x23]

/-- The state after an error completion with a code: STATUS as R237 says, everything else as before. -/
def errored (s : State) (code : BitVec 4) : State :=
  { s with status := { busy := false, done := true, err := true, found := false, busyWr := s.status.busyWr, errCode := code } }

/-- A trace record, written with the numbers of R96. -/
def record (tag idx v0 : Nat) (v1 v2 v3 : Nat := 0) : TraceRecord :=
  { tag := BitVec.ofNat 8 tag, idx := BitVec.ofNat 24 idx, v0 := word v0, v1 := word v1, v2 := word v2, v3 := word v3 }

/-- What a successful completion leaves: STATUS as R236 says, the four results, and the trace buffer holding exactly the
records, all-zero beyond them. -/
structure CompletesWith (s t : State) (found : Bool) (r0 r1 r2 r3 : Nat) (records : List TraceRecord) : Prop where
  status : t.status =
    { busy := false, done := true, err := false, found := found, busyWr := s.status.busyWr, errCode := 0 }
  res0 : t.res0.toNat = r0
  res1 : t.res1.toNat = r1
  res2 : t.res2.toNat = r2
  res3 : t.res3.toNat = r3
  traceLen : t.traceLen.toNat = records.length
  trace : ∀ i < 512, t.traceRecord i = records.getD i TraceRecord.zero

/-- `o` is the k-bit string whose position i, from the left and from 1, is position T i of the l-bit string v (R130). -/
def IsPerm (v l : Nat) (T : Nat → Nat) (k o : Nat) : Prop :=
  o < 2 ^ k ∧ ∀ i, 1 ≤ i → i ≤ k → bitAt o (k - i) = bitAt v (l - T i)

/-- `o` is the l-bit string v rotated left by n: its position i, from the left and from 0, is position (i + n) mod l of v
(R131). -/
def IsRot (v l n o : Nat) : Prop :=
  o < 2 ^ l ∧ ∀ i < l, bitAt o (l - 1 - i) = bitAt v (l - 1 - (i + n) % l)

/-- LX = LEN[4:0] (R25). -/
def lx (s : State) : Nat := s.len.toNat % 32
/-- LY = LEN[12:8] (R25). -/
def ly (s : State) : Nat := s.len.toNat / 2 ^ 8 % 32
/-- LEN[7:5] or LEN[31:13] is not 0 (R133's check 1). -/
def lenReserved (s : State) : Prop := s.len.toNat / 2 ^ 5 % 8 ≠ 0 ∨ s.len.toNat / 2 ^ 13 ≠ 0

/-- Entries 1 to n of a table lie in [1, lin] (R31). -/
def tableIn (s : State) (t : Table) (n lin : Nat) : Prop := ∀ k, 1 ≤ k → k ≤ n → 1 ≤ s.entry t k ∧ s.entry t k ≤ lin

/-- p or q is not below 2^16 (R150's check 1). -/
def pqTooWide (s : State) : Prop := 2 ^ 16 ≤ s.p.toNat ∨ 2 ^ 16 ≤ s.q.toNat

/-- phi = (p-1)*(q-1) (R151). -/
def phi (s : State) : Nat := (s.p.toNat - 1) * (s.q.toNat - 1)

/-- Key generation has no key to give: p or q is 0, or no e below phi is coprime to phi (R151, R152). -/
def noKey (s : State) : Prop := s.p.toNat = 0 ∨ s.q.toNat = 0 ∨ ∀ e, 2 ≤ e → e < phi s → Nat.gcd e (phi s) ≠ 1

/-- e is the smallest integer >= 2, below phi, coprime to phi (R152). -/
def IsExponent (s : State) (e : Nat) : Prop :=
  2 ≤ e ∧ e < phi s ∧ Nat.gcd e (phi s) = 1 ∧ ∀ x, 2 ≤ x → x < e → Nat.gcd x (phi s) ≠ 1

/-- d is the inverse of e in [1, phi), the first one upward (R112, R153). -/
def IsInverse (e phi d : Nat) : Prop :=
  1 ≤ d ∧ d < phi ∧ e * d % phi = 1 ∧ ∀ x, 1 ≤ x → x < d → e * x % phi ≠ 1

/-- The six records of key generation (R154). -/
def keyRecords (s : State) (n phi e d : Nat) : List TraceRecord :=
  [ record 0x10 0 s.p.toNat s.q.toNat n, record 0x11 0 (s.p.toNat - 1) (s.q.toNat - 1) phi, record 0x12 0 e phi 1,
    record 0x13 0 d e phi, record 0x14 0 e n, record 0x15 0 d n ]

/-- Every named value of the key schedule is as R181 to R183 say. -/
def IsSchedule (s : State) (v : KeySchedule) : Prop :=
  IsPerm s.key.toNat 10 (s.entry .p10) 10 v.p10 ∧ v.l = v.p10 / 2 ^ 5 ∧ v.r = v.p10 % 2 ^ 5 ∧
  IsRot v.l 5 1 v.l1 ∧ IsRot v.r 5 1 v.r1 ∧ IsPerm (v.l1 * 2 ^ 5 + v.r1) 10 (s.entry .p8) 8 v.k1 ∧
  IsRot v.l1 5 2 v.l2 ∧ IsRot v.r1 5 2 v.r2 ∧ IsPerm (v.l2 * 2 ^ 5 + v.r2) 10 (s.entry .p8) 8 v.k2

/-- The six records of the key schedule (R186). -/
def scheduleRecords (v : KeySchedule) : List TraceRecord :=
  [ record 0x20 0 v.p10, record 0x21 0 v.l v.r, record 0x22 0 v.l1 v.r1, record 0x23 0 v.k1, record 0x24 0 v.l2 v.r2,
    record 0x25 0 v.k2 ]

/-- The row of a 4-bit group: 2 * g[3] + g[0] (R200). -/
def row (g : Nat) : Nat := 2 * (g / 8 % 2) + g % 2
/-- The column of a 4-bit group: 2 * g[2] + g[1] (R200). -/
def col (g : Nat) : Nat := 2 * (g / 4 % 2) + g / 2 % 2
/-- S[row][col] (R200). -/
def sboxValue (b : SBox) (g : Nat) : Nat :=
  ((b[row g]'(by unfold row; omega))[col g]'(by unfold col; omega)).toNat

/-- Every named value of one call of the round function is as R201 says. -/
def IsRound (s : State) (h k : Nat) (f : Round) : Prop :=
  f.h = h ∧ f.k = k ∧ IsPerm h 4 (s.entry .ep) 8 f.ep ∧ f.x = f.ep ^^^ k ∧ f.gl = f.x / 2 ^ 4 ∧ f.gr = f.x % 2 ^ 4 ∧
  f.s = sboxValue s.cfg.sbox0 f.gl * 2 ^ 2 + sboxValue s.cfg.sbox1 f.gr ∧ IsPerm f.s 4 (s.entry .p4) 4 f.p

/-- The five records of one call of the round function (R202). -/
def roundRecords (s : State) (f : Round) (r : Nat) : List TraceRecord :=
  [ record 0x2B r f.h f.ep, record 0x2C r f.ep f.k f.x,
    record 0x2D r f.gl (row f.gl) (col f.gl) (sboxValue s.cfg.sbox0 f.gl),
    record 0x2E r f.gr (row f.gr) (col f.gr) (sboxValue s.cfg.sbox1 f.gr), record 0x2F r f.s f.p ]

/-- Every named value of the two-round datapath is as R206 says. -/
def IsFeistel (s : State) (ka kb : Nat) (f : Feistel) : Prop :=
  f.block = s.block.toNat ∧ IsPerm f.block 8 (s.entry .ip) 8 f.ip ∧ f.l0 = f.ip / 2 ^ 4 ∧ f.r0 = f.ip % 2 ^ 4 ∧
  IsRound s f.r0 ka f.f1 ∧ f.l1 = f.l0 ^^^ f.f1.p ∧ IsRound s f.l1 kb f.f2 ∧ f.l2 = f.r0 ^^^ f.f2.p ∧
  f.pre = f.l2 * 2 ^ 4 + f.l1 ∧ IsPerm f.pre 8 (s.entry .ipinv) 8 f.out

/-- The sixteen records of the datapath (R206). -/
def feistelRecords (s : State) (f : Feistel) : List TraceRecord :=
  [record 0x29 0 f.block f.ip, record 0x2A 0 f.l0 f.r0] ++ roundRecords s f.f1 1 ++
  [record 0x30 1 f.l0 f.f1.p f.l1, record 0x31 1 f.r0 f.l1] ++ roundRecords s f.f2 2 ++
  [record 0x30 2 f.r0 f.f2.p f.l2, record 0x32 0 f.pre f.out]

/-- KEY or BLOCK has a bit above its length (R205's checks 1 and 2). -/
def sdesMalformed (s : State) : Prop := 2 ^ 10 ≤ s.key.toNat ∨ 2 ^ 8 ≤ s.block.toNat

/-- The six tables are in range (R205's checks 3 to 8). -/
def sdesTablesIn (s : State) : Prop :=
  tableIn s .p10 10 10 ∧ tableIn s .p8 8 10 ∧ tableIn s .ip 8 8 ∧ tableIn s .ipinv 8 8 ∧ tableIn s .ep 8 4 ∧ tableIn s .p4 4 4

/-- The error codes a command may end in (spec/60_exceptions.md, table of R231). -/
def possibleCodes : Instr → List (BitVec 4)
  | .gcd => []
  | .modinv => []
  | .modexp => [1]
  | .permute => [1, 2]
  | .rotl => [1]
  | .xor => [1, 3]
  | .rsaKeygen => [1, 4]
  | .rsaEnc => [1, 4]
  | .rsaDec => [1, 4, 5]
  | .sdesKeysched => [1, 2]
  | .sdesEnc => [1, 2]
  | .sdesDec => [1, 2]
  | .sdesF => [1, 2]

/-- How many records a successful command leaves (spec/30_encoding.md, R97). -/
def recordCount (i : Instr) (s : State) : Nat :=
  match i with
  | .gcd => 1
  | .modinv => 1
  | .modexp => 1
  | .permute => 1
  | .rotl => 1
  | .xor => 1
  | .rsaKeygen => 6
  | .rsaEnc => 6 + s.mlen.toNat
  | .rsaDec => 6 + s.mlen.toNat
  | .sdesKeysched => 6
  | .sdesEnc => 23
  | .sdesDec => 23
  | .sdesF => 5

/-- Two states agree on a whole table. -/
def sameTable (s t : State) (T : Table) : Prop := ∀ k, 1 ≤ k → k ≤ T.size → s.entry T k = t.entry T k

/-- Two states agree on what a command reads (the "reads" column of R81, with the ROM and CP_MAX). -/
def sameReads (i : Instr) (s t : State) : Prop :=
  match i with
  | .gcd => s.a = t.a ∧ s.b = t.b
  | .modinv => s.a = t.a ∧ s.b = t.b
  | .modexp => s.a = t.a ∧ s.b = t.b ∧ s.c = t.c
  | .permute => s.a = t.a ∧ s.len = t.len ∧ sameTable s t .gt
  | .rotl => s.a = t.a ∧ s.b = t.b ∧ s.len = t.len
  | .xor => s.a = t.a ∧ s.b = t.b ∧ s.len = t.len
  | .rsaKeygen => s.p = t.p ∧ s.q = t.q
  | .rsaEnc => s.p = t.p ∧ s.q = t.q ∧ s.mlen = t.mlen ∧ (∀ k < 256, s.input k = t.input k) ∧ s.cfg.cpMax = t.cfg.cpMax
  | .rsaDec => s.p = t.p ∧ s.q = t.q ∧ s.mlen = t.mlen ∧ (∀ k < 256, s.input k = t.input k) ∧ s.cfg.cpMax = t.cfg.cpMax
  | .sdesKeysched => s.key = t.key ∧ sameTable s t .p10 ∧ sameTable s t .p8
  | .sdesEnc => s.key = t.key ∧ s.block = t.block ∧ (∀ T, T ≠ .gt → sameTable s t T) ∧
      s.cfg.sbox0 = t.cfg.sbox0 ∧ s.cfg.sbox1 = t.cfg.sbox1
  | .sdesDec => s.key = t.key ∧ s.block = t.block ∧ (∀ T, T ≠ .gt → sameTable s t T) ∧
      s.cfg.sbox0 = t.cfg.sbox0 ∧ s.cfg.sbox1 = t.cfg.sbox1
  | .sdesF => s.a = t.a ∧ s.b = t.b ∧ sameTable s t .ep ∧ sameTable s t .p4 ∧
      s.cfg.sbox0 = t.cfg.sbox0 ∧ s.cfg.sbox1 = t.cfg.sbox1

/-- A read-write address other than CMD (spec/10_state.md section 2). -/
def readWriteAddr (addr : Addr) : Prop :=
  (0x0002 ≤ addr.toNat ∧ addr.toNat ≤ 0x000A) ∨ (0x0020 ≤ addr.toNat ∧ addr.toNat ≤ 0x004D) ∨
  (0x0050 ≤ addr.toNat ∧ addr.toNat ≤ 0x005F) ∨ (0x0100 ≤ addr.toNat ∧ addr.toNat ≤ 0x01FF)

/-- A read-only address (spec/10_state.md section 2). -/
def readOnlyAddr (addr : Addr) : Prop :=
  addr.toNat = 0x0001 ∨ (0x0010 ≤ addr.toNat ∧ addr.toNat ≤ 0x0013) ∨ addr.toNat = 0x0018 ∨
  (0x0060 ≤ addr.toNat ∧ addr.toNat ≤ 0x007F) ∨ (0x0200 ≤ addr.toNat ∧ addr.toNat ≤ 0x02FF) ∨
  (0x1000 ≤ addr.toNat ∧ addr.toNat ≤ 0x1FFF)

/-- An unmapped address: R66 lists them. -/
def unmappedAddr (addr : Addr) : Prop :=
  (0x000B ≤ addr.toNat ∧ addr.toNat ≤ 0x000F) ∨ (0x0014 ≤ addr.toNat ∧ addr.toNat ≤ 0x0017) ∨
  (0x0019 ≤ addr.toNat ∧ addr.toNat ≤ 0x001F) ∨ (0x004E ≤ addr.toNat ∧ addr.toNat ≤ 0x004F) ∨
  (0x0080 ≤ addr.toNat ∧ addr.toNat ≤ 0x00FF) ∨ (0x0300 ≤ addr.toNat ∧ addr.toNat ≤ 0x0FFF) ∨
  (0x2000 ≤ addr.toNat ∧ addr.toNat ≤ 0xFFFF)

/-- The transaction is a write. -/
def isWrite : Transaction → Bool
  | .read _ => false
  | .write _ _ => true

end Sys2Proof.Claims

open Sys2Proof Sys2Proof.Machine Sys2Proof.Claims

/-! ## Encoding -/

/-- Each command's word of R81, written out, decodes to that command; words that R84 calls illegal decode to none. -/
def Obligations.WrittenOutWordsDecode : Prop :=
  decode 0x00000001 = .ok .gcd ∧ decode 0x00000002 = .ok .modinv ∧ decode 0x00000003 = .ok .modexp ∧
  decode 0x00000008 = .ok .permute ∧ decode 0x00000009 = .ok .rotl ∧ decode 0x0000000A = .ok .xor ∧
  decode 0x00000010 = .ok .rsaKeygen ∧ decode 0x00000011 = .ok .rsaEnc ∧ decode 0x00000012 = .ok .rsaDec ∧
  decode 0x00000020 = .ok .sdesKeysched ∧ decode 0x00000021 = .ok .sdesEnc ∧ decode 0x00000022 = .ok .sdesDec ∧
  decode 0x00000023 = .ok .sdesF ∧
  decode 0x00000000 = .error .unknownOpcode ∧ decode 0x00000024 = .error .unknownOpcode ∧
  decode 0x00000101 = .error .reservedBitsSet

/-- A word decodes to a command exactly when it is that command's encoding, and to none exactly when R84 calls it
illegal. -/
def Obligations.LegalWordsAreExactlyTheEncodings : Prop :=
  (∀ w i, decode w = .ok i ↔ w = encode i) ∧ ∀ w, (∃ e, decode w = .error e) ↔ illegalWord w

/-! ## The agents' turns -/

/-- While BUSY = 1, when the engine has the turn and the word in CMD decodes to a command, the step is that command's
completion step, on the state with the turn taken (R266).  An empty list of turns is the engine's turn: the model's choice
of a fair schedule (log entry 5). -/
def Obligations.EngineTurnRunsTheDecodedCommand : Prop :=
  ∀ s i, s.status.busy = true → decode s.cmd = .ok i →
    (s.outside.turns = [] → step s = exec i s) ∧
    ∀ rest, s.outside.turns = .engine :: rest → step s = exec i (s.withTurns rest)

/-- R84: an illegal word written to CMD while idle is accepted like any other, and completes with IllegalCommand whatever
the other registers hold. -/
def Obligations.IllegalWordsCompleteWithIllegalCommand : Prop :=
  ∀ s w rest, s.status.busy = false → illegalWord w →
    s.outside.turns = .host (.write 0x0000 w) :: .engine :: rest →
    ∃ t, step s = .next t ∧
      t = { s with
        cmd := w
        status := { busy := true, done := false, err := false, found := false, busyWr := false, errCode := 0 }
        outside := { s.outside with turns := .engine :: rest } } ∧
      step t = .next (errored (t.withTurns rest) 6)

/-- An engine's turn that is listed while BUSY = 0 is taken and changes nothing else.  That there is such a turn is the
model's choice (log entry 6): R266 enables the completion step only when BUSY = 1, and R245 says only that CORE does nothing
when no command is running. -/
def Obligations.IdleEngineTurnChangesNothing : Prop :=
  ∀ s rest, s.status.busy = false → s.outside.turns = .engine :: rest → step s = .next (s.withTurns rest)

/-- Every command completes, and every step answers a next state.  R238 says that there is no trap and R267 that every command
terminates; that nothing else stops the machine is the model's inference from the whole spec (log entry 13, DEDUCED). -/
def Obligations.EveryStepAnswersANextState : Prop :=
  (∀ i s, ∃ t, exec i s = .next t) ∧ ∀ s, ∃ t, step s = .next t

/-- When the turns to come have been taken, and the engine has had one more, no command is running.  The engine's turn on an
empty list is the model's choice of a fair schedule (log entry 5). -/
def Obligations.AcceptedCommandsComplete : Prop :=
  ∀ s : State, ∃ t : State, core.run (s.outside.turns.length + 1) s = .next t ∧ t.status.busy = false ∧ t.outside.turns = []

/-! ## Reset and the invariant -/

/-- The machine's invariant holds after reset, whatever the parameters. -/
def Obligations.ResetMeetsTheInvariant : Prop := ∀ cfg, (State.resetWith cfg).Inv

/-- From every state that meets the invariant, every step keeps it: the status combination stays legal, the memory keeps its
canonical form and lists only tables and buffers, the trace is at most 262 records, carries only R96's tags, and is zero
where R95 and R36 say so. -/
def Obligations.EveryStepKeepsTheInvariant : Prop := ∀ s t : State, s.Inv → step s = .next t → t.Inv

/-- R260: the reset input sets every piece of state to its reset value in one step, at any time; the S-box ROM stays. -/
def Obligations.ResetClearsEveryRegister : Prop :=
  ∀ s rest, s.outside.turns = .reset :: rest → ∃ t, step s = .next t ∧
    t.cmd = 0 ∧ t.status.toWord = 0 ∧ (∀ r, t.operand r = 0) ∧
    t.res0 = 0 ∧ t.res1 = 0 ∧ t.res2 = 0 ∧ t.res3 = 0 ∧ t.traceLen = 0 ∧
    (∀ T k, t.entry T k = 0) ∧ (∀ k, t.input k = 0) ∧ (∀ k, t.output k = 0) ∧
    (∀ k, t.traceRecord k = TraceRecord.zero) ∧ t.cfg = s.cfg ∧ t.outside = { s.outside with turns := rest }

/-- After reset every address but the S-box ROM reads 0; the ROM reads its contents, zero-extended, after reset as always. -/
def Obligations.AfterResetTheBusReadsZero : Prop :=
  (∀ cfg (addr : Addr), ¬ (0x0060 ≤ addr.toNat ∧ addr.toNat ≤ 0x007F) → busRead (State.resetWith cfg) addr = 0) ∧
  ∀ (s : State) (r c : Nat) (hr : r < 4) (hc : c < 4),
    (busRead s (BitVec.ofNat 16 (0x0060 + 4 * r + c))).toNat = (s.cfg.sbox0[r][c]).toNat ∧
    (busRead s (BitVec.ofNat 16 (0x0070 + 4 * r + c))).toNat = (s.cfg.sbox1[r][c]).toNat

/-! ## The host bus -/

/-- R235: a write of CMD while BUSY = 0 sets CMD and makes STATUS 0x00000001, and changes nothing else; the result registers,
OUT, TRACE and TRACE_LEN keep their values on every step until the completion; a write of CMD while BUSY = 1 is no accept, and
CMD keeps its word. -/
def Obligations.WritingCmdAcceptsACommand : Prop :=
  (∀ s w rest, s.status.busy = false → s.outside.turns = .host (.write 0x0000 w) :: rest →
    ∃ t, step s = .next t ∧ t.status.toWord = 0x00000001 ∧
      t = { s with cmd := w, status := t.status, outside := { s.outside with turns := rest } }) ∧
  (∀ s t, s.status.busy = true → step s = .next t → t.status.busy = true →
    t.res0 = s.res0 ∧ t.res1 = s.res1 ∧ t.res2 = s.res2 ∧ t.res3 = s.res3 ∧ t.traceLen = s.traceLen ∧ t.mem = s.mem) ∧
  ∀ s w rest, s.status.busy = true → s.outside.turns = .host (.write 0x0000 w) :: rest →
    ∃ t, step s = .next t ∧ t.status.busy = true ∧ t.cmd = s.cmd

/-- R270: a write to any address while BUSY = 1 changes nothing but BUSY_WR, which it sets; and BUSY_WR stays 1 until the next
accept or reset. -/
def Obligations.WritesWhileBusyAreDropped : Prop :=
  (∀ s addr v rest, s.status.busy = true → s.outside.turns = .host (.write addr v) :: rest →
    step s = .next { s with
      status := { s.status with busyWr := true }, outside := { s.outside with turns := rest } }) ∧
  ∀ s t, s.status.busyWr = true → step s = .next t →
    (∀ rest, s.outside.turns ≠ .reset :: rest) →
    (∀ w rest, s.status.busy = false → s.outside.turns ≠ .host (.write 0x0000 w) :: rest) →
    t.status.busyWr = true

/-- A read changes no state of CORE, while a command runs or not; the host is told the committed word (R64, R271). -/
def Obligations.ReadsChangeNothing : Prop :=
  ∀ s addr rest, s.outside.turns = .host (.read addr) :: rest →
    step s = .next { s with outside := { turns := rest, reads := (addr, busRead s addr) :: s.outside.reads } }

/-- A write to a read-write register, table entry or IN word while idle stores all 32 bits: that address reads as the word
written, and every other address as before (R62, R273; the read-write addresses are those of spec/10_state.md section 2).
That the reserved bits of LEN read back as written, and not as R65's last sentence has a reserved field read, is the model's
inference (log entry 16, DEDUCED).  The memory's canonical form is the premise: a step keeps it. -/
def Obligations.TheWordWrittenIsTheWordRead : Prop :=
  ∀ s addr v rest, Memory.wf s.mem → s.status.busy = false → readWriteAddr addr →
    s.outside.turns = .host (.write addr v) :: rest →
    ∃ t, step s = .next t ∧ busRead t addr = v ∧ ∀ b, b ≠ addr → busRead t b = busRead s b

/-- A write to a read-only or unmapped address changes nothing, except that it sets BUSY_WR while BUSY = 1; an unmapped
address reads 0; the reserved fields of STATUS and of the trace window read 0 (R65; which fields its last sentence means is
the model's reading, log entry 16). -/
def Obligations.ReadOnlyAndUnmappedAddresses : Prop :=
  (∀ s addr v rest, readOnlyAddr addr ∨ unmappedAddr addr → s.outside.turns = .host (.write addr v) :: rest →
    step s = .next { s with
      status := { s.status with busyWr := s.status.busyWr || s.status.busy }
      outside := { s.outside with turns := rest } }) ∧
  (∀ s addr, unmappedAddr addr → busRead s addr = 0) ∧
  (∀ (s : State) (i : Nat), (5 ≤ i ∧ i ≤ 7) ∨ 12 ≤ i → (busRead s 0x0001).getLsbD i = false) ∧
  ∀ (s : State) (i k : Nat), s.Inv → i < 512 → 5 ≤ k → k < 8 → busRead s (BitVec.ofNat 16 (0x1000 + 8 * i + k)) = 0

/-- A read of STATUS gives BUSY, DONE, ERR, FOUND and BUSY_WR in bits 0 to 4 and ERRCODE in bits 11:8 (the bits of R28). -/
def Obligations.StatusBitsAreWhereTheyBelong : Prop :=
  ∀ s : State,
    (busRead s 0x0001).getLsbD 0 = s.status.busy ∧ (busRead s 0x0001).getLsbD 1 = s.status.done ∧
    (busRead s 0x0001).getLsbD 2 = s.status.err ∧ (busRead s 0x0001).getLsbD 3 = s.status.found ∧
    (busRead s 0x0001).getLsbD 4 = s.status.busyWr ∧ (busRead s 0x0001).extractLsb' 8 4 = s.status.errCode

/-- Every name of the register map is read at its address: the registers (STATUS as the number its fields make, R28), each
table entry, each entry of the S-box ROM, the words of IN and OUT, and the eight words of each trace record, the last three of
them 0 in every state that meets the invariant (R95).  A register reads back as stored (R62); that this holds of the reserved
bits of LEN and CMD, and not R65's last sentence, is the model's inference (log entry 16, DEDUCED). -/
def Obligations.EveryNameIsReadAtItsAddress : Prop :=
  ∀ s : State,
    busRead s HostName.cmd.addr = s.cmd ∧
    (busRead s HostName.status.addr).toNat =
      s.status.busy.toNat + 2 * s.status.done.toNat + 2 ^ 2 * s.status.err.toNat + 2 ^ 3 * s.status.found.toNat +
        2 ^ 4 * s.status.busyWr.toNat + 2 ^ 8 * s.status.errCode.toNat ∧
    busRead s HostName.traceLen.addr = s.traceLen ∧
    (∀ r, busRead s (HostName.operand r).addr = s.operand r) ∧
    busRead s (HostName.res 0).addr = s.res0 ∧ busRead s (HostName.res 1).addr = s.res1 ∧
    busRead s (HostName.res 2).addr = s.res2 ∧ busRead s (HostName.res 3).addr = s.res3 ∧
    (∀ T k, 1 ≤ k → k ≤ T.size → (busRead s (HostName.entry T k).addr).toNat = s.entry T k) ∧
    (∀ r c : Fin 4, (busRead s (HostName.sbox0 r c).addr).toNat = (s.cfg.sbox0[r][c]).toNat ∧
      (busRead s (HostName.sbox1 r c).addr).toNat = (s.cfg.sbox1[r][c]).toNat) ∧
    (∀ i < 256, (busRead s (HostName.input i).addr).toNat = s.input i) ∧
    (∀ i < 256, (busRead s (HostName.output i).addr).toNat = s.output i) ∧
    ∀ i < 512,
      (busRead s (HostName.trace i 0).addr = (s.traceRecord i).idx ++ (s.traceRecord i).tag ∧
        busRead s (HostName.trace i 1).addr = (s.traceRecord i).v0 ∧ busRead s (HostName.trace i 2).addr = (s.traceRecord i).v1 ∧
        busRead s (HostName.trace i 3).addr = (s.traceRecord i).v2 ∧ busRead s (HostName.trace i 4).addr = (s.traceRecord i).v3) ∧
      (s.Inv → ∀ k, 5 ≤ k → k < 8 → busRead s (HostName.trace i k).addr = 0)

/-- The host's `wait`, with any number of polls, ends: its polls return BUSY = 1, the command completes, and the last read
returns BUSY = 0.  That the engine's turn comes after those polls is the model's form of the loop (`waitTurns`, log entry 15,
DESIGN CHOICE), which rests on the fairness R266 assumes. -/
def Obligations.WaitEndsWithBusyClear : Prop :=
  ∀ (s : State) polls rest, s.status.busy = true → s.outside.turns = waitTurns polls ++ rest →
    ∃ (t : State) (last : Word) (busyReads : List (Addr × Word)),
      core.run (polls + 2) s = .next t ∧ t.outside.turns = rest ∧ t.status.busy = false ∧
      t.outside.reads = (0x0001, last) :: busyReads ++ s.outside.reads ∧ last.getLsbD 0 = false ∧
      busyReads.length = polls ∧ ∀ x ∈ busyReads, x.1 = 0x0001 ∧ x.2.getLsbD 0 = true

/-- Whatever reads and writes the host performs between the accept and the completion, the command has the effect it has
when none is performed: only BUSY_WR, and what the host has been told, can differ. -/
def Obligations.HostTurnsDoNotReachARunningCommand : Prop :=
  ∀ (s : State) (ts : List Transaction) rest, s.status.busy = true →
    s.outside.turns = ts.map Turn.host ++ .engine :: rest →
    ∃ t u : State, core.run (ts.length + 1) s = .next t ∧ step (s.withTurns (.engine :: rest)) = .next u ∧
      t = { u with
        status := { u.status with busyWr := s.status.busyWr || ts.any isWrite }
        outside := { turns := rest, reads := t.outside.reads } }

/-! ## What every command has in common -/

/-- R237: a command that ends in an error changes only STATUS, which becomes what the rule says, with a code from 1 to 5. -/
def Obligations.ErrorsChangeOnlyStatus : Prop :=
  ∀ i s t, exec i s = .next t → t.status.err = true →
    t = errored s t.status.errCode ∧ 1 ≤ t.status.errCode.toNat ∧ t.status.errCode.toNat ≤ 5

/-- The frame of the thirteen commands: no completion changes an operand register, CMD, BUSY_WR, the ROM, what stands
outside CORE, or any word of memory outside OUT and TRACE; and only RSA_ENC and RSA_DEC change OUT. -/
def Obligations.CommandsChangeOnlyTheirResults : Prop :=
  ∀ i s t, exec i s = .next t →
    (∀ r, t.operand r = s.operand r) ∧ t.cmd = s.cmd ∧ t.status.busyWr = s.status.busyWr ∧ t.cfg = s.cfg ∧
    t.outside = s.outside ∧
    (∀ a, a < 0x0200 ∨ (0x0300 ≤ a ∧ a < 0x1000) ∨ 0x2000 ≤ a → t.mem.read a = s.mem.read a) ∧
    (i ≠ .rsaEnc → i ≠ .rsaDec → ∀ a, 0x0200 ≤ a → a < 0x0300 → t.mem.read a = s.mem.read a)

/-- Each command can end only in the error codes the spec lists for it (the spec's own inference, R231). -/
def Obligations.CommandsRaiseOnlyTheirErrors : Prop :=
  ∀ i s t, exec i s = .next t → t.status.err = true → t.status.errCode ∈ possibleCodes i

/-- A successful command leaves as many records as the spec counts for it (its own inference, R97), all-zero records after
them, and FOUND = 0 unless it is MODINV. -/
def Obligations.SuccessfulCommandsLeaveTheirRecords : Prop :=
  ∀ i s t, exec i s = .next t → t.status.err = false →
    t.traceLen.toNat = recordCount i s ∧ (∀ n < 512, recordCount i s ≤ n → t.traceRecord n = TraceRecord.zero) ∧
    (i ≠ .modinv → t.status.found = false)

/-- A command's result depends only on what R81 says it reads: states that agree on that give the same status, results,
trace and OUT, whatever an earlier command left. -/
def Obligations.ResultsDependOnlyOnWhatIsRead : Prop :=
  ∀ i s t, sameReads i s t → ∃ s' t', exec i s = .next s' ∧ exec i t = .next t' ∧
    s'.status.err = t'.status.err ∧ s'.status.errCode = t'.status.errCode ∧ s'.status.found = t'.status.found ∧
    (s'.status.err = false →
      s'.res0 = t'.res0 ∧ s'.res1 = t'.res1 ∧ s'.res2 = t'.res2 ∧ s'.res3 = t'.res3 ∧ s'.traceLen = t'.traceLen ∧
      (∀ n < 512, s'.traceRecord n = t'.traceRecord n) ∧
      (i = .rsaEnc ∨ i = .rsaDec → ∀ n < 256, s'.output n = t'.output n))

/-! ## The number engine -/

/-- R120: its word is 0x00000001; GCD cannot fail; RES0 is the greatest common divisor of A and B, with one record. -/
def Obligations.GcdGivesTheGreatestCommonDivisor : Prop :=
  decode 0x00000001 = .ok .gcd ∧
  ∀ s, ∃ t, exec .gcd s = .next t ∧
    CompletesWith s t false (Nat.gcd s.a.toNat s.b.toNat) 0 0 0
      [record 0x01 0 s.a.toNat s.b.toNat (Nat.gcd s.a.toNat s.b.toNat)]

/-- R121: MODINV gives the first inverse of A modulo B upward from 1, with FOUND = 1; when there is none in [1, B), RES0 = 0
and FOUND = 0, and no error. -/
def Obligations.ModinvSearchesTheInverse : Prop :=
  decode 0x00000002 = .ok .modinv ∧
  (∀ s d, IsInverse s.a.toNat s.b.toNat d → ∃ t, exec .modinv s = .next t ∧
    CompletesWith s t true d 0 0 0 [record 0x02 0 s.a.toNat s.b.toNat d 1]) ∧
  ∀ s, (∀ d, 1 ≤ d → d < s.b.toNat → s.a.toNat * d % s.b.toNat ≠ 1) → ∃ t, exec .modinv s = .next t ∧
    CompletesWith s t false 0 0 0 0 [record 0x02 0 s.a.toNat s.b.toNat 0 0]

/-- MODINV finds an inverse exactly when B >= 2 and A and B are coprime (the spec's own inference, R113). -/
def Obligations.ModinvFindsExactlyTheCoprime : Prop :=
  ∀ s, ∃ t, exec .modinv s = .next t ∧
    (t.status.found = true ↔ 2 ≤ s.b.toNat ∧ Nat.gcd s.a.toNat s.b.toNat = 1)

/-- R122: MODEXP gives A^B mod C, and MalformedInput when C = 0. -/
def Obligations.ModexpRaisesToThePower : Prop :=
  decode 0x00000003 = .ok .modexp ∧
  (∀ s, s.c.toNat = 0 → exec .modexp s = .next (errored s 1)) ∧
  ∀ s, s.c.toNat ≠ 0 → ∃ t, exec .modexp s = .next t ∧
    CompletesWith s t false (s.a.toNat ^ s.b.toNat % s.c.toNat) 0 0 0
      [record 0x03 0 s.a.toNat s.b.toNat s.c.toNat (s.a.toNat ^ s.b.toNat % s.c.toNat)]

/-! ## The bit utilities -/

/-- R134: PERMUTE ends in MalformedInput when a length or A is out of range, then in TableIndexOutOfRange when an entry of
GT[1..LY] is outside [1, LX]; otherwise position i of the result is position GT[i] of A. -/
def Obligations.PermuteAppliesTheGenericTable : Prop :=
  decode 0x00000008 = .ok .permute ∧
  (∀ s, lenReserved s ∨ lx s < 1 ∨ 16 < lx s ∨ ly s < 1 ∨ 16 < ly s ∨ 2 ^ lx s ≤ s.a.toNat →
    exec .permute s = .next (errored s 1)) ∧
  ∀ s, ¬ lenReserved s → 1 ≤ lx s → lx s ≤ 16 → 1 ≤ ly s → ly s ≤ 16 → s.a.toNat < 2 ^ lx s →
    (¬ tableIn s .gt (ly s) (lx s) → exec .permute s = .next (errored s 2)) ∧
    (tableIn s .gt (ly s) (lx s) → ∃ t o, exec .permute s = .next t ∧ IsPerm s.a.toNat (lx s) (s.entry .gt) (ly s) o ∧
      CompletesWith s t false o (ly s) 0 0 [record 0x08 0 s.a.toNat (lx s) o (ly s)])

/-- R135: ROTL ends in MalformedInput when LX or A is out of range, whatever LY holds; otherwise it rotates A left by B, for
any B, and records B as given. -/
def Obligations.RotlRotatesLeft : Prop :=
  decode 0x00000009 = .ok .rotl ∧
  (∀ s, lenReserved s ∨ lx s < 1 ∨ 16 < lx s ∨ 2 ^ lx s ≤ s.a.toNat → exec .rotl s = .next (errored s 1)) ∧
  ∀ s, ¬ lenReserved s → 1 ≤ lx s → lx s ≤ 16 → s.a.toNat < 2 ^ lx s →
    ∃ t o, exec .rotl s = .next t ∧ IsRot s.a.toNat (lx s) s.b.toNat o ∧
      CompletesWith s t false o 0 0 0 [record 0x09 0 s.a.toNat (lx s) s.b.toNat o]

/-- R136: XOR ends in MalformedInput when a length, A or B is out of range, then in LengthMismatch when the lengths differ;
otherwise bit j of the result is 1 exactly when bit j of one operand alone is. -/
def Obligations.XorCombinesEqualLengths : Prop :=
  decode 0x0000000A = .ok .xor ∧
  (∀ s, lenReserved s ∨ lx s < 1 ∨ 16 < lx s ∨ ly s < 1 ∨ 16 < ly s ∨ 2 ^ lx s ≤ s.a.toNat ∨ 2 ^ ly s ≤ s.b.toNat →
    exec .xor s = .next (errored s 1)) ∧
  ∀ s, ¬ lenReserved s → 1 ≤ lx s → lx s ≤ 16 → 1 ≤ ly s → ly s ≤ 16 → s.a.toNat < 2 ^ lx s → s.b.toNat < 2 ^ ly s →
    (lx s ≠ ly s → exec .xor s = .next (errored s 3)) ∧
    (lx s = ly s → ∃ t o, exec .xor s = .next t ∧
      (o < 2 ^ lx s ∧ ∀ j < lx s, bitAt o j = if bitAt s.a.toNat j = bitAt s.b.toNat j then 0 else 1) ∧
      CompletesWith s t false o 0 0 0 [record 0x0A 0 s.a.toNat s.b.toNat (lx s) o])

/-! ## The RSA engine -/

/-- R155: RSA_KEYGEN ends in MalformedInput when p or q is too wide, then in DegenerateKey when there is no key; otherwise the
results are n, phi, the smallest exponent and its inverse, with the six records. -/
def Obligations.RsaKeygenDerivesTheKeys : Prop :=
  decode 0x00000010 = .ok .rsaKeygen ∧
  (∀ s, pqTooWide s → exec .rsaKeygen s = .next (errored s 1)) ∧
  (∀ s, ¬ pqTooWide s → noKey s → exec .rsaKeygen s = .next (errored s 4)) ∧
  ∀ s, ¬ pqTooWide s → ¬ noKey s → ∃ t e d, exec .rsaKeygen s = .next t ∧ IsExponent s e ∧ IsInverse e (phi s) d ∧
    CompletesWith s t false (s.p.toNat * s.q.toNat) (phi s) e d
      (keyRecords s (s.p.toNat * s.q.toNat) (phi s) e d)

/-- For p and q below 2^16, key generation is degenerate exactly when p <= 1, q <= 1, or (p, q) is (2, 2), (2, 3) or (3, 2)
(the spec's own inference, R156). -/
def Obligations.DegenerateKeysAreExactlyThese : Prop :=
  ∀ s, ¬ pqTooWide s → (exec .rsaKeygen s = .next (errored s 4) ↔
    s.p.toNat ≤ 1 ∨ s.q.toNat ≤ 1 ∨ (s.p.toNat = 2 ∧ s.q.toNat = 2) ∨ (s.p.toNat = 2 ∧ s.q.toNat = 3) ∨
      (s.p.toNat = 3 ∧ s.q.toNat = 2))

/-- R160: RSA_ENC checks p and q, MLEN and the code points before it derives the keys; then OUT[i] = IN[i]^e mod n below MLEN
and 0 from MLEN on, with the key records and one record per element. -/
def Obligations.RsaEncEncryptsTheMessage : Prop :=
  decode 0x00000011 = .ok .rsaEnc ∧
  (∀ s, pqTooWide s ∨ 256 < s.mlen.toNat ∨ (s.mlen.toNat ≤ 256 ∧ ∃ i < s.mlen.toNat, s.cfg.cpMax < s.input i) →
    exec .rsaEnc s = .next (errored s 1)) ∧
  (∀ s, ¬ pqTooWide s → s.mlen.toNat ≤ 256 → (∀ i < s.mlen.toNat, s.input i ≤ s.cfg.cpMax) → noKey s →
    exec .rsaEnc s = .next (errored s 4)) ∧
  ∀ s, ¬ pqTooWide s → s.mlen.toNat ≤ 256 → (∀ i < s.mlen.toNat, s.input i ≤ s.cfg.cpMax) → ¬ noKey s →
    ∃ t e d, exec .rsaEnc s = .next t ∧ IsExponent s e ∧ IsInverse e (phi s) d ∧
      CompletesWith s t false (s.p.toNat * s.q.toNat) (phi s) e d
        (keyRecords s (s.p.toNat * s.q.toNat) (phi s) e d ++ (List.range s.mlen.toNat).map fun i =>
          record 0x16 i (s.input i) e (s.p.toNat * s.q.toNat) (s.input i ^ e % (s.p.toNat * s.q.toNat))) ∧
      (∀ i < s.mlen.toNat, t.output i = s.input i ^ e % (s.p.toNat * s.q.toNat)) ∧
      ∀ i < 256, s.mlen.toNat ≤ i → t.output i = 0

/-- R165: RSA_DEC checks p and q and MLEN, derives the keys, and ends in InvalidCodepoint when some c^d mod n is above CP_MAX;
otherwise OUT[i] = IN[i]^d mod n below MLEN and 0 from MLEN on, with the key records and one record per element. -/
def Obligations.RsaDecDecryptsTheMessage : Prop :=
  decode 0x00000012 = .ok .rsaDec ∧
  (∀ s, pqTooWide s ∨ 256 < s.mlen.toNat → exec .rsaDec s = .next (errored s 1)) ∧
  (∀ s, ¬ pqTooWide s → s.mlen.toNat ≤ 256 → noKey s → exec .rsaDec s = .next (errored s 4)) ∧
  ∀ s, ¬ pqTooWide s → s.mlen.toNat ≤ 256 → ¬ noKey s →
    ∃ e d, IsExponent s e ∧ IsInverse e (phi s) d ∧
      ((∃ i < s.mlen.toNat, s.cfg.cpMax < s.input i ^ d % (s.p.toNat * s.q.toNat)) →
        exec .rsaDec s = .next (errored s 5)) ∧
      ((∀ i < s.mlen.toNat, s.input i ^ d % (s.p.toNat * s.q.toNat) ≤ s.cfg.cpMax) → ∃ t, exec .rsaDec s = .next t ∧
        CompletesWith s t false (s.p.toNat * s.q.toNat) (phi s) e d
          (keyRecords s (s.p.toNat * s.q.toNat) (phi s) e d ++ (List.range s.mlen.toNat).map fun i =>
            record 0x17 i (s.input i) d (s.p.toNat * s.q.toNat) (s.input i ^ d % (s.p.toNat * s.q.toNat))) ∧
        (∀ i < s.mlen.toNat, t.output i = s.input i ^ d % (s.p.toNat * s.q.toNat)) ∧
        ∀ i < 256, s.mlen.toNat ≤ i → t.output i = 0)

/-- For distinct primes p, q > 2 below 2^16 and a message of at most 256 code points below min(n, CP_MAX + 1), RSA_DEC applied
to the OUT of RSA_ENC gives the message back (the corrected property of R170, the spec's own inference). -/
def Obligations.RsaDecInvertsRsaEnc : Prop :=
  ∀ s : State, s.p.toNat.Prime → s.q.toNat.Prime → s.p ≠ s.q → 2 < s.p.toNat → 2 < s.q.toNat →
    s.p.toNat < 2 ^ 16 → s.q.toNat < 2 ^ 16 → s.mlen.toNat ≤ 256 →
    (∀ i < s.mlen.toNat, s.input i < s.p.toNat * s.q.toNat ∧ s.input i ≤ s.cfg.cpMax) →
    ∃ t, exec .rsaEnc s = .next t ∧ t.status.err = false ∧
      ∀ r : State, r.p = s.p → r.q = s.q → r.mlen = s.mlen → r.cfg = s.cfg →
        (∀ i < s.mlen.toNat, r.input i = t.output i) →
        ∃ u, exec .rsaDec r = .next u ∧ u.status.err = false ∧ ∀ i < s.mlen.toNat, u.output i = s.input i

/-! ## The S-DES engine -/

/-- R185: SDES_KEYSCHED ends in MalformedInput when KEY is too long, then in TableIndexOutOfRange when an entry of P10 or P8 is
out of range; otherwise RES0 and RES1 are K1 and K2, with the six records of the schedule. -/
def Obligations.SdesKeyschedDerivesTheSubkeys : Prop :=
  decode 0x00000020 = .ok .sdesKeysched ∧
  (∀ s, 2 ^ 10 ≤ s.key.toNat → exec .sdesKeysched s = .next (errored s 1)) ∧
  (∀ s, s.key.toNat < 2 ^ 10 → ¬ (tableIn s .p10 10 10 ∧ tableIn s .p8 8 10) →
    exec .sdesKeysched s = .next (errored s 2)) ∧
  ∀ s, s.key.toNat < 2 ^ 10 → tableIn s .p10 10 10 → tableIn s .p8 8 10 →
    ∃ t v, exec .sdesKeysched s = .next t ∧ IsSchedule s v ∧
      CompletesWith s t false v.k1 v.k2 0 0 (scheduleRecords v)

/-- R207: SDES_F ends in MalformedInput when A or B is too long, then in TableIndexOutOfRange when an entry of EP or P4 is out
of range; otherwise RES0 is f(A, B), with the five records of the round function. -/
def Obligations.SdesFAppliesTheRoundFunction : Prop :=
  decode 0x00000023 = .ok .sdesF ∧
  (∀ s, 2 ^ 4 ≤ s.a.toNat ∨ 2 ^ 8 ≤ s.b.toNat → exec .sdesF s = .next (errored s 1)) ∧
  (∀ s, s.a.toNat < 2 ^ 4 → s.b.toNat < 2 ^ 8 → ¬ (tableIn s .ep 8 4 ∧ tableIn s .p4 4 4) →
    exec .sdesF s = .next (errored s 2)) ∧
  ∀ s, s.a.toNat < 2 ^ 4 → s.b.toNat < 2 ^ 8 → tableIn s .ep 8 4 → tableIn s .p4 4 4 →
    ∃ t f, exec .sdesF s = .next t ∧ IsRound s s.a.toNat s.b.toNat f ∧
      CompletesWith s t false f.p 0 0 0 (roundRecords s f 0)

/-- R210: SDES_ENC ends in MalformedInput when KEY or BLOCK is too long, then in TableIndexOutOfRange when a table is out of
range; otherwise RES0 is the block through the datapath with (K1, K2), RES1 and RES2 are K1 and K2, with the 23 records. -/
def Obligations.SdesEncEncryptsTheBlock : Prop :=
  decode 0x00000021 = .ok .sdesEnc ∧
  (∀ s, sdesMalformed s → exec .sdesEnc s = .next (errored s 1)) ∧
  (∀ s, ¬ sdesMalformed s → ¬ sdesTablesIn s → exec .sdesEnc s = .next (errored s 2)) ∧
  ∀ s, ¬ sdesMalformed s → sdesTablesIn s →
    ∃ t v f, exec .sdesEnc s = .next t ∧ IsSchedule s v ∧ IsFeistel s v.k1 v.k2 f ∧
      CompletesWith s t false f.out v.k1 v.k2 0
        (scheduleRecords v ++ [record 0x28 0 v.k1 v.k2 0] ++ feistelRecords s f)

/-- R211: SDES_DEC is SDES_ENC with the round keys swapped; RES1 and RES2 are K1 and K2 in schedule order. -/
def Obligations.SdesDecDecryptsTheBlock : Prop :=
  decode 0x00000022 = .ok .sdesDec ∧
  (∀ s, sdesMalformed s → exec .sdesDec s = .next (errored s 1)) ∧
  (∀ s, ¬ sdesMalformed s → ¬ sdesTablesIn s → exec .sdesDec s = .next (errored s 2)) ∧
  ∀ s, ¬ sdesMalformed s → sdesTablesIn s →
    ∃ t v f, exec .sdesDec s = .next t ∧ IsSchedule s v ∧ IsFeistel s v.k2 v.k1 f ∧
      CompletesWith s t false f.out v.k1 v.k2 0
        (scheduleRecords v ++ [record 0x28 0 v.k2 v.k1 1] ++ feistelRecords s f)

/-- Whenever IPINV inverts IP on positions 1..8, SDES_DEC of the block SDES_ENC gave, with the same key and tables, gives the
block back, for every block, key, P10, P8, EP, P4 and S-box content (the corrected property of R215, the spec's own
inference). -/
def Obligations.SdesDecInvertsSdesEnc : Prop :=
  ∀ s : State, ¬ sdesMalformed s → sdesTablesIn s →
    (∀ i, 1 ≤ i → i ≤ 8 → s.entry .ipinv (s.entry .ip i) = i ∧ s.entry .ip (s.entry .ipinv i) = i) →
    ∃ t, exec .sdesEnc s = .next t ∧ t.status.err = false ∧
      ∃ u, exec .sdesDec { t with block := t.res0 } = .next u ∧ u.status.err = false ∧ u.res0 = s.block
end

