-- ==== Sys2Proof/Laws/BitOps.lean ====
section
/-! SUPPORT. What the bitstring functions compute, position by position (spec/00_scope.md R7, R8; spec/41_bitops.md R130 to
R132), and the bounds of their results. -/

namespace Sys2Proof.Machine

theorem bitAt_eq_testBit (v i : Nat) : bitAt v i = (v.testBit i).toNat := by
  rw [bitAt, Nat.toNat_testBit]

theorem bitAt_lt_two (v i : Nat) : bitAt v i < 2 := Nat.mod_lt _ (by decide)

theorem slice_lt (v hi lo : Nat) : slice v hi lo < 2 ^ (hi - lo + 1) := Nat.mod_lt _ (by positivity)

/-- Two naturals below 2^L with the same bits below L are equal. -/
theorem eq_of_bits {x y l : Nat} (hx : x < 2 ^ l) (hy : y < 2 ^ l) (h : ∀ j < l, bitAt x j = bitAt y j) : x = y := by
  refine Nat.eq_of_testBit_eq fun j => ?_
  by_cases hj : j < l
  · have := h j hj
    rw [bitAt_eq_testBit, bitAt_eq_testBit] at this
    cases hx : x.testBit j <;> cases hy : y.testBit j <;> simp_all
  · have hle : 2 ^ l ≤ 2 ^ j := Nat.pow_le_pow_right (by decide) (by omega)
    rw [Nat.testBit_lt_two_pow (by omega), Nat.testBit_lt_two_pow (by omega)]

theorem concat_lt {a k b m : Nat} (ha : a < 2 ^ m) (hb : b < 2 ^ k) : concat a k b < 2 ^ (m + k) := by
  have : a * 2 ^ k + 2 ^ k ≤ 2 ^ m * 2 ^ k := by
    rw [← Nat.succ_mul]; exact Nat.mul_le_mul_right _ ha
  rw [concat, Nat.pow_add]
  omega

/-- A bit of a concatenation comes from the right field below k, and from the left field above (R7). -/
theorem bitAt_concat {a k b : Nat} (hb : b < 2 ^ k) (j : Nat) :
    bitAt (concat a k b) j = if j < k then bitAt b j else bitAt a (j - k) := by
  rw [bitAt_eq_testBit, concat, Nat.mul_comm, Nat.testBit_two_pow_mul_add _ hb]
  split <;> rw [bitAt_eq_testBit]

theorem bitAt_slice (v hi lo j : Nat) : bitAt (slice v hi lo) j = if j < hi - lo + 1 then bitAt v (lo + j) else 0 := by
  rw [bitAt_eq_testBit, slice, Nat.testBit_mod_two_pow, Nat.testBit_div_two_pow, bitAt_eq_testBit]
  by_cases h : j < hi - lo + 1 <;> simp [h, Nat.add_comm]

/-- Cutting a value at a bit and joining the parts gives it back. -/
theorem concat_slice {v k m : Nat} (hv : v < 2 ^ (k + (m + 1))) :
    concat (slice v (k + m) k) k (v % 2 ^ k) = v := by
  have : v / 2 ^ k < 2 ^ (m + 1) := by
    rw [Nat.div_lt_iff_lt_mul (by positivity), ← Nat.pow_add, Nat.add_comm]; exact hv
  rw [concat, slice, show k + m - k + 1 = m + 1 by omega, Nat.mod_eq_of_lt this, Nat.mul_comm, Nat.div_add_mod]

theorem permFold_eq (v l : Nat) (t : List Nat) (acc : Nat) :
    t.foldl (fun out e => concat out 1 (bitAt v (l - e))) acc = acc * 2 ^ t.length + perm v l t := by
  induction t generalizing acc with
  | nil => simp [perm]
  | cons e t ih =>
    rw [perm, List.foldl_cons, List.foldl_cons, ih, ih (concat 0 1 _)]
    simp only [concat, List.length_cons, Nat.pow_succ]
    ring

theorem perm_cons (v l e : Nat) (t : List Nat) :
    perm v l (e :: t) = bitAt v (l - e) * 2 ^ t.length + perm v l t := by
  rw [perm, List.foldl_cons, permFold_eq]
  simp [concat]

/-- The output has as many bits as the table has entries (R130). -/
theorem perm_lt (v l : Nat) (t : List Nat) : perm v l t < 2 ^ t.length := by
  induction t with
  | nil => simp [perm]
  | cons e t ih =>
    have := bitAt_lt_two v (l - e)
    rw [perm_cons, List.length_cons, Nat.pow_succ]
    have : bitAt v (l - e) * 2 ^ t.length ≤ 1 * 2 ^ t.length := Nat.mul_le_mul_right _ (by omega)
    omega

/-- Position i of the output, from the left, is position T[i] of the input (R130). -/
theorem bitAt_perm (v l : Nat) (t : List Nat) (i : Nat) (hi : i < t.length) :
    bitAt (perm v l t) (t.length - 1 - i) = bitAt v (l - t[i]) := by
  induction t generalizing i with
  | nil => simp at hi
  | cons e t ih =>
    have hp := perm_lt v l t
    have hb := bitAt_lt_two v (l - e)
    rw [perm_cons]
    change bitAt (concat (bitAt v (l - e)) t.length (perm v l t)) _ = _
    rw [bitAt_concat hp]
    cases i with
    | zero =>
      simp only [List.length_cons, List.getElem_cons_zero]
      rw [if_neg (by omega), show t.length + 1 - 1 - 0 - t.length = 0 by omega]
      simp only [bitAt, pow_zero, Nat.div_one, Nat.mod_mod]
    | succ i =>
      simp only [List.length_cons] at hi ⊢
      rw [if_pos (by omega), show t.length + 1 - 1 - (i + 1) = t.length - 1 - i by omega, ih i (by omega)]
      simp

/-- A rotation keeps the length (R131). -/
theorem rotl_lt {v l : Nat} (hv : v < 2 ^ l) (n : Nat) : rotl v l n < 2 ^ l := by
  unfold rotl
  simp only
  split
  · exact hv
  · exact Nat.mod_lt _ (by positivity)

/-- Position i of the output, from the left and from 0, is position (i + n) mod L of the input (R131). -/
theorem bitAt_rotl {v l : Nat} (hl : 1 ≤ l) (hv : v < 2 ^ l) (n i : Nat) (hi : i < l) :
    bitAt (rotl v l n) (l - 1 - i) = bitAt v (l - 1 - (i + n) % l) := by
  have hmod : (i + n) % l = if i + n % l < l then i + n % l else i + n % l - l := by
    have hk := Nat.mod_lt n (show 0 < l by omega)
    rw [Nat.add_mod, Nat.mod_eq_of_lt hi]
    split
    · next h => exact Nat.mod_eq_of_lt h
    · next h => rw [Nat.mod_eq_sub_mod (by omega), Nat.mod_eq_of_lt (by omega)]
  have hk := Nat.mod_lt n (show 0 < l by omega)
  rw [hmod]
  unfold rotl
  simp only
  generalize n % l = k at hk
  split
  · next h => subst h; simp [hi]
  · next h =>
    have hw : v / 2 ^ (l - k) < 2 ^ k := by
      rw [Nat.div_lt_iff_lt_mul (by positivity), ← Nat.pow_add, show k + (l - k) = l by omega]; exact hv
    rw [bitAt_eq_testBit, Nat.testBit_mod_two_pow, Nat.mul_comm v, Nat.testBit_two_pow_mul_add _ hw,
      decide_eq_true (show l - 1 - i < l by omega), Bool.true_and, bitAt_eq_testBit]
    by_cases hik : i + k < l
    · rw [if_neg (by omega), if_pos hik, show l - 1 - i - k = l - 1 - (i + k) by omega]
    · rw [if_pos (by omega), if_neg hik, Nat.testBit_div_two_pow,
        show l - 1 - i + (l - k) = l - 1 - (i + k - l) by omega]

theorem xorBits_lt {a b l : Nat} (ha : a < 2 ^ l) (hb : b < 2 ^ l) : xorBits a b < 2 ^ l := Nat.xor_lt_two_pow ha hb

theorem bitAt_xorBits (a b j : Nat) : bitAt (xorBits a b) j = (bitAt a j + bitAt b j) % 2 := by
  simp only [xorBits, bitAt_eq_testBit, Nat.testBit_xor]
  cases a.testBit j <;> cases b.testBit j <;> rfl

/-- XOR with the same value twice gives the first back: the Feistel rounds rest on it. -/
theorem xorBits_cancel (a b : Nat) : xorBits (xorBits a b) b = a := by
  rw [xorBits, xorBits, Nat.xor_assoc, Nat.xor_self, Nat.xor_zero]

theorem sboxRow_lt (g : Nat) : sboxRow g < 4 := by
  have := bitAt_lt_two g 3; have := bitAt_lt_two g 0; unfold sboxRow; omega

theorem sboxCol_lt (g : Nat) : sboxCol g < 4 := by
  have := bitAt_lt_two g 2; have := bitAt_lt_two g 1; unfold sboxCol; omega

/-- Every S-box output has two bits (R33, R200). -/
theorem sboxOut_lt (b : SBox) (g : Nat) : sboxOut b g < 4 := by
  unfold sboxOut sboxEntry; exact BitVec.isLt _

end Sys2Proof.Machine
end

