-- ==== Sys2Proof/Laws/State.lean ====
section
/-! SUPPORT. What each named update of the state leaves in each field: one lemma per field per update, so that no later
proof unfolds a record update. -/

namespace Sys2Proof.Machine

@[simp] theorem State.withTurns_cmd (s : State) (ts : List Turn) : (s.withTurns ts).cmd = s.cmd := rfl
@[simp] theorem State.withTurns_status (s : State) (ts : List Turn) : (s.withTurns ts).status = s.status := rfl
@[simp] theorem State.withTurns_a (s : State) (ts : List Turn) : (s.withTurns ts).a = s.a := rfl
@[simp] theorem State.withTurns_b (s : State) (ts : List Turn) : (s.withTurns ts).b = s.b := rfl
@[simp] theorem State.withTurns_c (s : State) (ts : List Turn) : (s.withTurns ts).c = s.c := rfl
@[simp] theorem State.withTurns_p (s : State) (ts : List Turn) : (s.withTurns ts).p = s.p := rfl
@[simp] theorem State.withTurns_q (s : State) (ts : List Turn) : (s.withTurns ts).q = s.q := rfl
@[simp] theorem State.withTurns_key (s : State) (ts : List Turn) : (s.withTurns ts).key = s.key := rfl
@[simp] theorem State.withTurns_block (s : State) (ts : List Turn) : (s.withTurns ts).block = s.block := rfl
@[simp] theorem State.withTurns_len (s : State) (ts : List Turn) : (s.withTurns ts).len = s.len := rfl
@[simp] theorem State.withTurns_mlen (s : State) (ts : List Turn) : (s.withTurns ts).mlen = s.mlen := rfl
@[simp] theorem State.withTurns_res0 (s : State) (ts : List Turn) : (s.withTurns ts).res0 = s.res0 := rfl
@[simp] theorem State.withTurns_res1 (s : State) (ts : List Turn) : (s.withTurns ts).res1 = s.res1 := rfl
@[simp] theorem State.withTurns_res2 (s : State) (ts : List Turn) : (s.withTurns ts).res2 = s.res2 := rfl
@[simp] theorem State.withTurns_res3 (s : State) (ts : List Turn) : (s.withTurns ts).res3 = s.res3 := rfl
@[simp] theorem State.withTurns_traceLen (s : State) (ts : List Turn) : (s.withTurns ts).traceLen = s.traceLen := rfl
@[simp] theorem State.withTurns_mem (s : State) (ts : List Turn) : (s.withTurns ts).mem = s.mem := rfl
@[simp] theorem State.withTurns_cfg (s : State) (ts : List Turn) : (s.withTurns ts).cfg = s.cfg := rfl
@[simp] theorem State.withTurns_outside (s : State) (ts : List Turn) : (s.withTurns ts).outside = { s.outside with turns := ts } := rfl

@[simp] theorem State.accept_cmd (s : State) (v : Word) : (s.accept v).cmd = v := rfl
@[simp] theorem State.accept_status (s : State) (v : Word) : (s.accept v).status = Status.accepted := rfl
@[simp] theorem State.accept_a (s : State) (v : Word) : (s.accept v).a = s.a := rfl
@[simp] theorem State.accept_b (s : State) (v : Word) : (s.accept v).b = s.b := rfl
@[simp] theorem State.accept_c (s : State) (v : Word) : (s.accept v).c = s.c := rfl
@[simp] theorem State.accept_p (s : State) (v : Word) : (s.accept v).p = s.p := rfl
@[simp] theorem State.accept_q (s : State) (v : Word) : (s.accept v).q = s.q := rfl
@[simp] theorem State.accept_key (s : State) (v : Word) : (s.accept v).key = s.key := rfl
@[simp] theorem State.accept_block (s : State) (v : Word) : (s.accept v).block = s.block := rfl
@[simp] theorem State.accept_len (s : State) (v : Word) : (s.accept v).len = s.len := rfl
@[simp] theorem State.accept_mlen (s : State) (v : Word) : (s.accept v).mlen = s.mlen := rfl
@[simp] theorem State.accept_res0 (s : State) (v : Word) : (s.accept v).res0 = s.res0 := rfl
@[simp] theorem State.accept_res1 (s : State) (v : Word) : (s.accept v).res1 = s.res1 := rfl
@[simp] theorem State.accept_res2 (s : State) (v : Word) : (s.accept v).res2 = s.res2 := rfl
@[simp] theorem State.accept_res3 (s : State) (v : Word) : (s.accept v).res3 = s.res3 := rfl
@[simp] theorem State.accept_traceLen (s : State) (v : Word) : (s.accept v).traceLen = s.traceLen := rfl
@[simp] theorem State.accept_mem (s : State) (v : Word) : (s.accept v).mem = s.mem := rfl
@[simp] theorem State.accept_cfg (s : State) (v : Word) : (s.accept v).cfg = s.cfg := rfl
@[simp] theorem State.accept_outside (s : State) (v : Word) : (s.accept v).outside = s.outside := rfl

@[simp] theorem State.fail_cmd (s : State) (e : ErrorCode) : (s.fail e).cmd = s.cmd := rfl
@[simp] theorem State.fail_status (s : State) (e : ErrorCode) : (s.fail e).status = s.status.failed e := rfl
@[simp] theorem State.fail_a (s : State) (e : ErrorCode) : (s.fail e).a = s.a := rfl
@[simp] theorem State.fail_b (s : State) (e : ErrorCode) : (s.fail e).b = s.b := rfl
@[simp] theorem State.fail_c (s : State) (e : ErrorCode) : (s.fail e).c = s.c := rfl
@[simp] theorem State.fail_p (s : State) (e : ErrorCode) : (s.fail e).p = s.p := rfl
@[simp] theorem State.fail_q (s : State) (e : ErrorCode) : (s.fail e).q = s.q := rfl
@[simp] theorem State.fail_key (s : State) (e : ErrorCode) : (s.fail e).key = s.key := rfl
@[simp] theorem State.fail_block (s : State) (e : ErrorCode) : (s.fail e).block = s.block := rfl
@[simp] theorem State.fail_len (s : State) (e : ErrorCode) : (s.fail e).len = s.len := rfl
@[simp] theorem State.fail_mlen (s : State) (e : ErrorCode) : (s.fail e).mlen = s.mlen := rfl
@[simp] theorem State.fail_res0 (s : State) (e : ErrorCode) : (s.fail e).res0 = s.res0 := rfl
@[simp] theorem State.fail_res1 (s : State) (e : ErrorCode) : (s.fail e).res1 = s.res1 := rfl
@[simp] theorem State.fail_res2 (s : State) (e : ErrorCode) : (s.fail e).res2 = s.res2 := rfl
@[simp] theorem State.fail_res3 (s : State) (e : ErrorCode) : (s.fail e).res3 = s.res3 := rfl
@[simp] theorem State.fail_traceLen (s : State) (e : ErrorCode) : (s.fail e).traceLen = s.traceLen := rfl
@[simp] theorem State.fail_mem (s : State) (e : ErrorCode) : (s.fail e).mem = s.mem := rfl
@[simp] theorem State.fail_cfg (s : State) (e : ErrorCode) : (s.fail e).cfg = s.cfg := rfl
@[simp] theorem State.fail_outside (s : State) (e : ErrorCode) : (s.fail e).outside = s.outside := rfl

@[simp] theorem State.commit_cmd (s : State) (k : Commit) : (s.commit k).cmd = s.cmd := rfl
@[simp] theorem State.commit_status (s : State) (k : Commit) : (s.commit k).status = s.status.succeeded k.found := rfl
@[simp] theorem State.commit_a (s : State) (k : Commit) : (s.commit k).a = s.a := rfl
@[simp] theorem State.commit_b (s : State) (k : Commit) : (s.commit k).b = s.b := rfl
@[simp] theorem State.commit_c (s : State) (k : Commit) : (s.commit k).c = s.c := rfl
@[simp] theorem State.commit_p (s : State) (k : Commit) : (s.commit k).p = s.p := rfl
@[simp] theorem State.commit_q (s : State) (k : Commit) : (s.commit k).q = s.q := rfl
@[simp] theorem State.commit_key (s : State) (k : Commit) : (s.commit k).key = s.key := rfl
@[simp] theorem State.commit_block (s : State) (k : Commit) : (s.commit k).block = s.block := rfl
@[simp] theorem State.commit_len (s : State) (k : Commit) : (s.commit k).len = s.len := rfl
@[simp] theorem State.commit_mlen (s : State) (k : Commit) : (s.commit k).mlen = s.mlen := rfl
@[simp] theorem State.commit_res0 (s : State) (k : Commit) : (s.commit k).res0 = word k.res0 := rfl
@[simp] theorem State.commit_res1 (s : State) (k : Commit) : (s.commit k).res1 = word k.res1 := rfl
@[simp] theorem State.commit_res2 (s : State) (k : Commit) : (s.commit k).res2 = word k.res2 := rfl
@[simp] theorem State.commit_res3 (s : State) (k : Commit) : (s.commit k).res3 = word k.res3 := rfl
@[simp] theorem State.commit_traceLen (s : State) (k : Commit) : (s.commit k).traceLen = word k.records.length := rfl
@[simp] theorem State.commit_mem (s : State) (k : Commit) : (s.commit k).mem = (s.mem.commitOut k.out).commitTrace k.records := rfl
@[simp] theorem State.commit_cfg (s : State) (k : Commit) : (s.commit k).cfg = s.cfg := rfl
@[simp] theorem State.commit_outside (s : State) (k : Commit) : (s.commit k).outside = s.outside := rfl

@[simp] theorem hostRead_cmd (s : State) (addr : Addr) : (hostRead s addr).cmd = s.cmd := rfl
@[simp] theorem hostRead_status (s : State) (addr : Addr) : (hostRead s addr).status = s.status := rfl
@[simp] theorem hostRead_a (s : State) (addr : Addr) : (hostRead s addr).a = s.a := rfl
@[simp] theorem hostRead_b (s : State) (addr : Addr) : (hostRead s addr).b = s.b := rfl
@[simp] theorem hostRead_c (s : State) (addr : Addr) : (hostRead s addr).c = s.c := rfl
@[simp] theorem hostRead_p (s : State) (addr : Addr) : (hostRead s addr).p = s.p := rfl
@[simp] theorem hostRead_q (s : State) (addr : Addr) : (hostRead s addr).q = s.q := rfl
@[simp] theorem hostRead_key (s : State) (addr : Addr) : (hostRead s addr).key = s.key := rfl
@[simp] theorem hostRead_block (s : State) (addr : Addr) : (hostRead s addr).block = s.block := rfl
@[simp] theorem hostRead_len (s : State) (addr : Addr) : (hostRead s addr).len = s.len := rfl
@[simp] theorem hostRead_mlen (s : State) (addr : Addr) : (hostRead s addr).mlen = s.mlen := rfl
@[simp] theorem hostRead_res0 (s : State) (addr : Addr) : (hostRead s addr).res0 = s.res0 := rfl
@[simp] theorem hostRead_res1 (s : State) (addr : Addr) : (hostRead s addr).res1 = s.res1 := rfl
@[simp] theorem hostRead_res2 (s : State) (addr : Addr) : (hostRead s addr).res2 = s.res2 := rfl
@[simp] theorem hostRead_res3 (s : State) (addr : Addr) : (hostRead s addr).res3 = s.res3 := rfl
@[simp] theorem hostRead_traceLen (s : State) (addr : Addr) : (hostRead s addr).traceLen = s.traceLen := rfl
@[simp] theorem hostRead_mem (s : State) (addr : Addr) : (hostRead s addr).mem = s.mem := rfl
@[simp] theorem hostRead_cfg (s : State) (addr : Addr) : (hostRead s addr).cfg = s.cfg := rfl
@[simp] theorem hostRead_outside (s : State) (addr : Addr) : (hostRead s addr).outside = { s.outside with reads := (addr, busRead s addr) :: s.outside.reads } := rfl

@[simp] theorem resetTurn_cmd (s : State) : (resetTurn s).cmd = 0 := rfl
@[simp] theorem resetTurn_status (s : State) : (resetTurn s).status = Status.reset := rfl
@[simp] theorem resetTurn_a (s : State) : (resetTurn s).a = 0 := rfl
@[simp] theorem resetTurn_b (s : State) : (resetTurn s).b = 0 := rfl
@[simp] theorem resetTurn_c (s : State) : (resetTurn s).c = 0 := rfl
@[simp] theorem resetTurn_p (s : State) : (resetTurn s).p = 0 := rfl
@[simp] theorem resetTurn_q (s : State) : (resetTurn s).q = 0 := rfl
@[simp] theorem resetTurn_key (s : State) : (resetTurn s).key = 0 := rfl
@[simp] theorem resetTurn_block (s : State) : (resetTurn s).block = 0 := rfl
@[simp] theorem resetTurn_len (s : State) : (resetTurn s).len = 0 := rfl
@[simp] theorem resetTurn_mlen (s : State) : (resetTurn s).mlen = 0 := rfl
@[simp] theorem resetTurn_res0 (s : State) : (resetTurn s).res0 = 0 := rfl
@[simp] theorem resetTurn_res1 (s : State) : (resetTurn s).res1 = 0 := rfl
@[simp] theorem resetTurn_res2 (s : State) : (resetTurn s).res2 = 0 := rfl
@[simp] theorem resetTurn_res3 (s : State) : (resetTurn s).res3 = 0 := rfl
@[simp] theorem resetTurn_traceLen (s : State) : (resetTurn s).traceLen = 0 := rfl
@[simp] theorem resetTurn_mem (s : State) : (resetTurn s).mem = [] := rfl
@[simp] theorem resetTurn_cfg (s : State) : (resetTurn s).cfg = s.cfg := rfl
@[simp] theorem resetTurn_outside (s : State) : (resetTurn s).outside = s.outside := rfl

@[simp] theorem State.setOperand_cmd (s : State) (r : Operand) (v : Word) : (s.setOperand r v).cmd = s.cmd := by
  cases r <;> rfl
@[simp] theorem State.setOperand_status (s : State) (r : Operand) (v : Word) : (s.setOperand r v).status = s.status := by
  cases r <;> rfl
@[simp] theorem State.setOperand_res0 (s : State) (r : Operand) (v : Word) : (s.setOperand r v).res0 = s.res0 := by
  cases r <;> rfl
@[simp] theorem State.setOperand_res1 (s : State) (r : Operand) (v : Word) : (s.setOperand r v).res1 = s.res1 := by
  cases r <;> rfl
@[simp] theorem State.setOperand_res2 (s : State) (r : Operand) (v : Word) : (s.setOperand r v).res2 = s.res2 := by
  cases r <;> rfl
@[simp] theorem State.setOperand_res3 (s : State) (r : Operand) (v : Word) : (s.setOperand r v).res3 = s.res3 := by
  cases r <;> rfl
@[simp] theorem State.setOperand_traceLen (s : State) (r : Operand) (v : Word) : (s.setOperand r v).traceLen = s.traceLen := by
  cases r <;> rfl
@[simp] theorem State.setOperand_mem (s : State) (r : Operand) (v : Word) : (s.setOperand r v).mem = s.mem := by
  cases r <;> rfl
@[simp] theorem State.setOperand_cfg (s : State) (r : Operand) (v : Word) : (s.setOperand r v).cfg = s.cfg := by
  cases r <;> rfl
@[simp] theorem State.setOperand_outside (s : State) (r : Operand) (v : Word) : (s.setOperand r v).outside = s.outside := by
  cases r <;> rfl

/-- Writing an operand register: that register reads as the whole word, every other as before (R62). -/
theorem State.operand_setOperand (s : State) (r r' : Operand) (v : Word) :
    (s.setOperand r v).operand r' = if r = r' then v else s.operand r' := by
  cases r <;> cases r' <;> rfl

@[simp] theorem Status.succeeded_busy (s : Status) (found : Bool) : (s.succeeded found).busy = false := rfl
@[simp] theorem Status.succeeded_done (s : Status) (found : Bool) : (s.succeeded found).done = true := rfl
@[simp] theorem Status.succeeded_err (s : Status) (found : Bool) : (s.succeeded found).err = false := rfl
@[simp] theorem Status.succeeded_found (s : Status) (found : Bool) : (s.succeeded found).found = found := rfl
@[simp] theorem Status.succeeded_busyWr (s : Status) (found : Bool) : (s.succeeded found).busyWr = s.busyWr := rfl
@[simp] theorem Status.succeeded_errCode (s : Status) (found : Bool) : (s.succeeded found).errCode = 0 := rfl
@[simp] theorem Status.failed_busy (s : Status) (e : ErrorCode) : (s.failed e).busy = false := rfl
@[simp] theorem Status.failed_done (s : Status) (e : ErrorCode) : (s.failed e).done = true := rfl
@[simp] theorem Status.failed_err (s : Status) (e : ErrorCode) : (s.failed e).err = true := rfl
@[simp] theorem Status.failed_found (s : Status) (e : ErrorCode) : (s.failed e).found = false := rfl
@[simp] theorem Status.failed_busyWr (s : Status) (e : ErrorCode) : (s.failed e).busyWr = s.busyWr := rfl
@[simp] theorem Status.failed_errCode (s : Status) (e : ErrorCode) : (s.failed e).errCode = e.code := rfl

end Sys2Proof.Machine
end

