-- ==== Sys2Proof/Laws/Bus.lean ====
section
/-! SUPPORT. The address map, region by region, and what a host write can do (spec/20_memory.md R64 to R66;
spec/70_reset_and_hazards.md R270). -/

namespace Sys2Proof.Machine

/-- The registers below the tables. -/
theorem target_register {addr : Addr} (h : addr.toNat < 0x0020) : target addr = registerTarget addr.toNat := if_pos h

/-- The words a host may write: the permutation tables, GT and IN. -/
theorem target_writable {addr : Addr} (h : (0x20 ≤ addr.toNat ∧ addr.toNat ≤ 0x4D) ∨
    (0x50 ≤ addr.toNat ∧ addr.toNat ≤ 0x5F) ∨ (0x100 ≤ addr.toNat ∧ addr.toNat ≤ 0x1FF)) : target addr = .ram := by
  rcases h with h | h | h <;> rw [target] <;> repeat rw [if_neg (by omega)]
  all_goals exact if_pos (by omega)

/-- The words only a completion writes: OUT and TRACE. -/
theorem target_buffer {addr : Addr} (h : (0x200 ≤ addr.toNat ∧ addr.toNat ≤ 0x2FF) ∨
    (0x1000 ≤ addr.toNat ∧ addr.toNat ≤ 0x1FFF)) : target addr = .buffer := by
  rcases h with h | h <;> rw [target] <;> repeat rw [if_neg (by omega)]
  all_goals exact if_pos (by omega)

theorem target_sbox0 {addr : Addr} (h : 0x60 ≤ addr.toNat ∧ addr.toNat ≤ 0x6F) :
    target addr = .sbox0 ((addr.toNat - 0x0060) / 4) ((addr.toNat - 0x0060) % 4) := by
  rw [target]
  repeat rw [if_neg (by omega)]
  exact if_pos (by omega)

theorem target_sbox1 {addr : Addr} (h : 0x70 ≤ addr.toNat ∧ addr.toNat ≤ 0x7F) :
    target addr = .sbox1 ((addr.toNat - 0x0070) / 4) ((addr.toNat - 0x0070) % 4) := by
  rw [target]
  repeat rw [if_neg (by omega)]
  exact if_pos (by omega)

/-- The gaps above the registers (R66). -/
theorem target_gap {addr : Addr} (h : (0x4D < addr.toNat ∧ addr.toNat < 0x50) ∨ (0x7F < addr.toNat ∧ addr.toNat < 0x100) ∨
    (0x2FF < addr.toNat ∧ addr.toNat < 0x1000) ∨ 0x1FFF < addr.toNat) : target addr = .unmapped := by
  rw [target]
  rcases h with h | h | h | h <;> repeat rw [if_neg (by omega)]
  all_goals exact if_pos (by omega)

/-- The regions of the address space, and what each address of a region names (R66). -/
theorem target_cases (addr : Addr) :
    (addr.toNat < 0x0020 ∧ target addr = registerTarget addr.toNat) ∨
    (((0x20 ≤ addr.toNat ∧ addr.toNat ≤ 0x4D) ∨ (0x50 ≤ addr.toNat ∧ addr.toNat ≤ 0x5F) ∨
      (0x100 ≤ addr.toNat ∧ addr.toNat ≤ 0x1FF)) ∧ target addr = .ram) ∨
    (((0x200 ≤ addr.toNat ∧ addr.toNat ≤ 0x2FF) ∨ (0x1000 ≤ addr.toNat ∧ addr.toNat ≤ 0x1FFF)) ∧ target addr = .buffer) ∨
    ((0x60 ≤ addr.toNat ∧ addr.toNat ≤ 0x6F) ∧
      target addr = .sbox0 ((addr.toNat - 0x0060) / 4) ((addr.toNat - 0x0060) % 4)) ∨
    ((0x70 ≤ addr.toNat ∧ addr.toNat ≤ 0x7F) ∧
      target addr = .sbox1 ((addr.toNat - 0x0070) / 4) ((addr.toNat - 0x0070) % 4)) ∨
    (((0x4D < addr.toNat ∧ addr.toNat < 0x50) ∨ (0x7F < addr.toNat ∧ addr.toNat < 0x100) ∨
      (0x2FF < addr.toNat ∧ addr.toNat < 0x1000) ∨ 0x1FFF < addr.toNat) ∧ target addr = .unmapped) := by
  refine (em (addr.toNat < 0x0020)).imp (fun h => ⟨h, target_register h⟩) fun h₀ => ?_
  refine (em _).imp (fun h => ⟨h, target_writable h⟩) fun h₁ => ?_
  refine (em _).imp (fun h => ⟨h, target_buffer h⟩) fun h₂ => ?_
  refine (em _).imp (fun h => ⟨h, target_sbox0 h⟩) fun h₃ => ?_
  refine (em _).imp (fun h => ⟨h, target_sbox1 h⟩) fun h₄ => ?_
  refine ⟨?_, target_gap ?_⟩ <;> omega

theorem registerTarget_not_memory (n : Nat) : registerTarget n ≠ .ram ∧ registerTarget n ≠ .buffer := by
  unfold registerTarget
  split <;> simp

/-- A word of the word memory that the host may write lies in a table, in GT or in IN (R66). -/
theorem target_ram {addr : Addr} (h : target addr = .ram) :
    (0x20 ≤ addr.toNat ∧ addr.toNat ≤ 0x4D) ∨ (0x50 ≤ addr.toNat ∧ addr.toNat ≤ 0x5F) ∨
    (0x100 ≤ addr.toNat ∧ addr.toNat ≤ 0x1FF) := by
  have hr := (registerTarget_not_memory addr.toNat).1
  rcases target_cases addr with ⟨-, h'⟩ | ⟨h', -⟩ | ⟨-, h'⟩ | ⟨-, h'⟩ | ⟨-, h'⟩ | ⟨-, h'⟩
  · exact absurd (h'.symm.trans h) hr
  · exact h'
  all_goals rw [h'] at h; cases h

/-- What a host write can do: it is dropped, or it lands (R64, R270). -/
theorem busWrite_cases (s : State) (addr : Addr) (v : Word) :
    (s.status.busy = true ∧ busWrite s addr v = { s with status := s.status.dropped }) ∨
    (s.status.busy = false ∧ busWrite s addr v = idleWrite s addr v) := by
  unfold busWrite
  cases s.status.busy <;> simp

/-- What a write that lands can do: an accept, one operand register, one word of memory, or nothing (R64, R65). -/
theorem idleWrite_cases (s : State) (addr : Addr) (v : Word) :
    idleWrite s addr v = s.accept v ∨ (∃ r, idleWrite s addr v = s.setOperand r v) ∨
    (target addr = .ram ∧ idleWrite s addr v = { s with mem := s.mem.write addr.toNat v }) ∨ idleWrite s addr v = s := by
  unfold idleWrite
  cases target addr
  case cmd => exact .inl rfl
  case operand r => exact .inr (.inl ⟨r, rfl⟩)
  case ram => exact .inr (.inr (.inl ⟨rfl, rfl⟩))
  all_goals exact .inr (.inr (.inr rfl))

end Sys2Proof.Machine
end

