-- ==== Sys2Proof/Laws/Numeric.lean ====
section
/-! SUPPORT. What the functions of the number engine and of key generation compute (spec/40_numeric.md R110 to R116;
spec/42_rsa.md R151 to R153). -/

namespace Sys2Proof.Machine

theorem euclidLoop_eq_gcd (n a b : Nat) (h : b ≤ n) : euclidLoop n a b = Nat.gcd a b := by
  induction n generalizing a b with
  | zero => simp [euclidLoop, Nat.le_zero.1 h]
  | succ n ih =>
    unfold euclidLoop
    split
    · next hb => simp [hb]
    · next hb =>
      have := Nat.mod_lt a (Nat.pos_of_ne_zero hb)
      rw [ih _ _ (by omega), Nat.gcd_comm a b, Nat.gcd_rec b a, Nat.gcd_comm]

/-- Euclid's algorithm computes the greatest common divisor (R110). -/
theorem euclid_eq_gcd (a b : Nat) : euclid a b = Nat.gcd a b := euclidLoop_eq_gcd b a b le_rfl

theorem powmodLoop_eq (n r s x m : Nat) (hx : x ≤ n) (hr : r % m = r) :
    powmodLoop n r s x m = r * s ^ x % m := by
  induction n generalizing r s x with
  | zero => simp [powmodLoop, Nat.le_zero.1 hx, hr]
  | succ n ih =>
    unfold powmodLoop
    split
    · next h => simp [h, hr]
    · next h =>
      have hdiv := Nat.div_add_mod x 2
      have hsq : ∀ c, c * (s * s % m) ^ (x / 2) % m = c * s ^ (2 * (x / 2)) % m := fun c => by
        rw [Nat.mul_mod, ← Nat.pow_mod, ← Nat.mul_mod, pow_mul, pow_two]
      rw [ih _ _ _ (by omega) (by split <;> simp [hr]), hsq]
      rcases Nat.mod_two_eq_zero_or_one x with h2 | h2
      · have : bitAt x 0 ≠ 1 := by simp [bitAt, h2]
        rw [if_neg this, show 2 * (x / 2) = x by omega]
      · have : bitAt x 0 = 1 := by simp [bitAt, h2]
        rw [if_pos this, Nat.mul_mod, Nat.mod_mod, ← Nat.mul_mod, mul_assoc, ← pow_succ',
          show 2 * (x / 2) + 1 = x by omega]

/-- powmod is b^x mod m, with 0^0 = 1 (R114). -/
theorem powmod_eq (b x m : Nat) : powmod b x m = b ^ x % m := by
  rw [powmod, powmodLoop_eq _ _ _ _ _ le_rfl (Nat.mod_mod _ _), Nat.mul_mod, Nat.mod_mod, ← Nat.pow_mod, ← Nat.mul_mod,
    one_mul]

theorem powmod_lt (b x : Nat) {m : Nat} (hm : 0 < m) : powmod b x m < m := powmod_eq b x m ▸ Nat.mod_lt _ hm

theorem bezoutLoop_spec (n phi e r0 t0 r1 t1 : Nat) (hn : r1 ≤ n) (hphi : 0 < phi)
    (h0 : t0 * e ≡ r0 [MOD phi]) (h1 : t1 * e ≡ r1 [MOD phi]) (b0 : t0 < phi) (b1 : t1 < phi) :
    (bezoutLoop n phi r0 t0 r1 t1).1 = Nat.gcd r0 r1 ∧
    (bezoutLoop n phi r0 t0 r1 t1).2 * e ≡ Nat.gcd r0 r1 [MOD phi] ∧ (bezoutLoop n phi r0 t0 r1 t1).2 < phi := by
  induction n generalizing r0 t0 r1 t1 with
  | zero => simpa [bezoutLoop, Nat.le_zero.1 hn] using ⟨h0, b0⟩
  | succ n ih =>
    unfold bezoutLoop
    split
    · next h => simpa [h] using ⟨h0, b0⟩
    · next h =>
      have hlt := Nat.mod_lt r0 (Nat.pos_of_ne_zero h)
      have hgcd : Nat.gcd r0 r1 = Nat.gcd r1 (r0 % r1) := by rw [Nat.gcd_comm, Nat.gcd_rec, Nat.gcd_comm]
      rw [hgcd]
      refine ih _ _ _ _ (by omega) h1 ?_ b1 (Nat.mod_lt _ hphi)
      rw [← ZMod.natCast_eq_natCast_iff] at h0 h1 ⊢
      have hle : r0 / r1 * t1 % phi ≤ phi := (Nat.mod_lt _ hphi).le
      have hr : ((r0 % r1 : Nat) : ZMod phi) = r0 - (r0 / r1 : Nat) * r1 := by
        have := congrArg (Nat.cast : Nat → ZMod phi) (Nat.div_add_mod r0 r1)
        push_cast at this
        linear_combination this
      rw [hr, ← h0, ← h1]
      push_cast [Nat.cast_sub hle, ZMod.natCast_mod]
      simp only [CharP.cast_eq_zero]
      ring

/-- An inverse in [1, phi) is unique (R113). -/
theorem inverse_unique {e phi d d' : Nat} (hd : d < phi) (hd' : d' < phi) (h : e * d % phi = 1) (h' : e * d' % phi = 1) :
    d = d' := by
  have h1 : e * d ≡ e * d' [MOD phi] := h.trans h'.symm
  have hphi : 1 < phi := by
    by_contra hc
    have : phi ≤ 1 := by omega
    interval_cases phi
    · simp at hd
    · simp [Nat.mod_one] at h
  have hg : Nat.gcd phi e = 1 := by
    have hdvd : Nat.gcd phi e ∣ 1 := by
      have := (Nat.dvd_mod_iff (Nat.gcd_dvd_left phi e)).2 ((Nat.gcd_dvd_right phi e).mul_right d)
      rwa [h] at this
    exact Nat.dvd_one.1 hdvd
  exact Nat.ModEq.eq_of_lt_of_lt (Nat.ModEq.cancel_left_of_coprime hg h1) hd hd'

/-- An inverse exists only for e coprime to phi. -/
theorem gcd_eq_one_of_inverse {e phi d : Nat} (h : e * d % phi = 1) : Nat.gcd e phi = 1 := by
  have := (Nat.dvd_mod_iff (Nat.gcd_dvd_right e phi)).2 ((Nat.gcd_dvd_left e phi).mul_right d)
  rw [h] at this
  exact Nat.dvd_one.1 this

/-- What minv answers: the inverse when gcd(e, phi) = 1 and phi >= 2 (R113). -/
theorem minv_coprime {e phi : Nat} (hphi : 2 ≤ phi) (hg : Nat.gcd e phi = 1) :
    ∃ d, minv e phi = some d ∧ 1 ≤ d ∧ d < phi ∧ e * d % phi = 1 := by
  have hs := bezoutLoop_spec phi phi e phi 0 (e % phi) 1 (Nat.mod_lt _ (by omega)).le (by omega)
    (by simp [Nat.ModEq]) (by simp [Nat.ModEq]) (by omega) (by omega)
  have hg' : Nat.gcd phi (e % phi) = 1 := by rw [Nat.gcd_comm, ← Nat.gcd_rec, Nat.gcd_comm, hg]
  rw [hg'] at hs
  obtain ⟨h1, h2, h3⟩ := hs
  have hinv : e * (bezoutLoop phi phi phi 0 (e % phi) 1).2 % phi = 1 := by
    rw [Nat.mul_comm, h2, Nat.mod_eq_of_lt (by omega)]
  refine ⟨(bezoutLoop phi phi phi 0 (e % phi) 1).2, ?_, ?_, h3, hinv⟩
  · simp only [minv, if_neg (show ¬ phi ≤ 1 by omega), h1, if_true]
  · rcases Nat.eq_zero_or_pos (bezoutLoop phi phi phi 0 (e % phi) 1).2 with h0 | h0
    · rw [h0] at hinv; simp at hinv
    · exact h0

theorem minv_not_coprime {e phi : Nat} (h : phi ≤ 1 ∨ Nat.gcd e phi ≠ 1) : minv e phi = none := by
  by_cases hphi : phi ≤ 1
  · simp [minv, hphi]
  · have hg := h.resolve_left hphi
    have hs := bezoutLoop_spec phi phi e phi 0 (e % phi) 1 (Nat.mod_lt _ (by omega)).le (by omega)
      (by simp [Nat.ModEq]) (by simp [Nat.ModEq]) (by omega) (by omega)
    have hg' : Nat.gcd phi (e % phi) ≠ 1 := by rwa [Nat.gcd_comm, ← Nat.gcd_rec, Nat.gcd_comm]
    simp only [minv, if_neg hphi]
    rw [show bezoutLoop phi phi phi 0 (e % phi) 1 = (_, _) from rfl]
    simp [hs.1, hg']

/-- minv finds d exactly when d is the inverse in [1, phi) (R112, R113). -/
theorem minv_eq_some_iff {e phi d : Nat} : minv e phi = some d ↔ 1 ≤ d ∧ d < phi ∧ e * d % phi = 1 := by
  by_cases h : 2 ≤ phi ∧ Nat.gcd e phi = 1
  · obtain ⟨d', hd', h1, h2, h3⟩ := minv_coprime h.1 h.2
    rw [hd', Option.some_inj]
    exact ⟨fun hd => hd ▸ ⟨h1, h2, h3⟩, fun hd => inverse_unique h2 hd.2.1 h3 hd.2.2⟩
  · rw [minv_not_coprime (by by_contra hc; exact h ⟨by omega, by tauto⟩)]
    refine ⟨fun hd => (Option.some_ne_none _ hd.symm).elim, fun hd => (h ⟨by omega, gcd_eq_one_of_inverse hd.2.2⟩).elim⟩

/-- minv answers "not found" exactly when no d in [1, phi) is an inverse (R112). -/
theorem minv_eq_none_iff {e phi : Nat} : minv e phi = none ↔ ∀ d, 1 ≤ d → d < phi → e * d % phi ≠ 1 := by
  refine ⟨fun h d h1 h2 h3 => ?_, fun h => ?_⟩
  · rw [minv_eq_some_iff.2 ⟨h1, h2, h3⟩] at h; cases h
  · cases hm : minv e phi with
    | none => rfl
    | some d => obtain ⟨h1, h2, h3⟩ := minv_eq_some_iff.1 hm; exact (h d h1 h2 h3).elim

theorem minvSearchFrom_spec (n d e phi : Nat) (hn : phi ≤ d + n) :
    (∀ r, minvSearchFrom n d e phi = some r → d ≤ r ∧ r < phi ∧ e * r % phi = 1) ∧
    (minvSearchFrom n d e phi = none → ∀ r, d ≤ r → r < phi → e * r % phi ≠ 1) := by
  induction n generalizing d with
  | zero => exact ⟨by simp [minvSearchFrom], fun _ r h1 h2 => by omega⟩
  | succ n ih =>
    unfold minvSearchFrom
    by_cases hd : d < phi
    · rw [if_pos hd]
      by_cases h1 : e * d % phi = 1
      · rw [if_pos h1]
        exact ⟨fun r hr => by cases hr; exact ⟨le_rfl, hd, h1⟩, by simp⟩
      · rw [if_neg h1]
        obtain ⟨ih1, ih2⟩ := ih (d + 1) (by omega)
        refine ⟨fun r hr => ?_, fun hr r hr1 hr2 => ?_⟩
        · have := ih1 r hr; exact ⟨by omega, this.2⟩
        · rcases Nat.eq_or_lt_of_le hr1 with rfl | h
          · exact h1
          · exact ih2 hr r h hr2
    · rw [if_neg hd]
      exact ⟨by simp, fun _ r h1 h2 => by omega⟩

/-- The closed form and the brute-force search of R112 give the same answer (R113). -/
theorem minv_eq_minvSearch (e phi : Nat) : minv e phi = minvSearch e phi := by
  obtain ⟨h1, h2⟩ := minvSearchFrom_spec phi 1 e phi (by omega)
  unfold minvSearch
  cases hs : minvSearchFrom phi 1 e phi with
  | none => exact minv_eq_none_iff.2 (h2 hs)
  | some d => exact minv_eq_some_iff.2 (h1 d hs)

theorem exponentFrom_spec (n e phi : Nat) (hn : phi ≤ e + n) :
    (∀ r, exponentFrom n e phi = some r →
      e ≤ r ∧ r < phi ∧ Nat.gcd r phi = 1 ∧ ∀ x, e ≤ x → x < r → Nat.gcd x phi ≠ 1) ∧
    (exponentFrom n e phi = none → ∀ x, e ≤ x → x < phi → Nat.gcd x phi ≠ 1) := by
  induction n generalizing e with
  | zero => exact ⟨by simp [exponentFrom], fun _ r h1 h2 => by omega⟩
  | succ n ih =>
    unfold exponentFrom
    by_cases he : phi ≤ e
    · rw [if_pos he]
      exact ⟨by simp, fun _ r h1 h2 => by omega⟩
    · rw [if_neg he, euclid_eq_gcd]
      by_cases h1 : Nat.gcd e phi = 1
      · rw [if_pos h1]
        exact ⟨fun r hr => by cases hr; exact ⟨le_rfl, by omega, h1, fun x h2 h3 => by omega⟩, by simp⟩
      · rw [if_neg h1]
        obtain ⟨ih1, ih2⟩ := ih (e + 1) (by omega)
        refine ⟨fun r hr => ?_, fun hr x hx1 hx2 => ?_⟩
        · obtain ⟨a1, a2, a3, a4⟩ := ih1 r hr
          refine ⟨by omega, a2, a3, fun x hx1 hx2 => ?_⟩
          rcases Nat.eq_or_lt_of_le hx1 with rfl | h
          · exact h1
          · exact a4 x h hx2
        · rcases Nat.eq_or_lt_of_le hx1 with rfl | h
          · exact h1
          · exact ih2 hr x h hx2

/-- The exponent found is the smallest in [2, phi) coprime to phi (R152). -/
theorem publicExponent_some {phi e : Nat} (h : publicExponent phi = some e) :
    2 ≤ e ∧ e < phi ∧ Nat.gcd e phi = 1 ∧ ∀ x, 2 ≤ x → x < e → Nat.gcd x phi ≠ 1 :=
  (exponentFrom_spec phi 2 phi (by omega)).1 e h

/-- No exponent is found only when none in [2, phi) is coprime to phi (R152). -/
theorem publicExponent_none {phi : Nat} (h : publicExponent phi = none) :
    ∀ x, 2 ≤ x → x < phi → Nat.gcd x phi ≠ 1 :=
  (exponentFrom_spec phi 2 phi (by omega)).2 h

/-- An exponent exists exactly for phi >= 3 (R156). -/
theorem publicExponent_isSome {phi : Nat} : (∃ e, publicExponent phi = some e) ↔ 3 ≤ phi := by
  refine ⟨fun ⟨e, he⟩ => ?_, fun h => ?_⟩
  · have := publicExponent_some he; omega
  · cases hp : publicExponent phi with
    | some e => exact ⟨e, rfl⟩
    | none =>
      refine (publicExponent_none hp (phi - 1) (by omega) (by omega) ?_).elim
      have : Nat.Coprime (phi - 1) (phi - 1 + 1) := by simp
      rwa [Nat.sub_add_cancel (by omega)] at this

/-- Key generation's only error is DegenerateKey (R151 to R153). -/
theorem keyGen_error {p q : Nat} {e : ErrorCode} (h : keyGen p q = .error e) : e = .degenerateKey := by
  unfold keyGen at h
  split at h
  · cases h; rfl
  · simp only at h
    split at h
    · cases h; rfl
    · split at h
      · cases h; rfl
      · cases h

/-- What key generation derives when it succeeds (R151 to R153). -/
theorem keyGen_ok {p q : Nat} {k : KeyPair} (h : keyGen p q = .ok k) :
    1 ≤ p ∧ 1 ≤ q ∧ k.n = p * q ∧ k.phi = (p - 1) * (q - 1) ∧ publicExponent k.phi = some k.e ∧ minv k.e k.phi = some k.d := by
  unfold keyGen at h
  split at h
  · cases h
  · next hpq =>
    simp only at h
    split at h
    · cases h
    · next e he =>
      split at h
      · cases h
      · next d hd =>
        cases h
        exact ⟨by omega, by omega, rfl, rfl, he, hd⟩

/-- Key generation succeeds exactly when p and q are positive and phi >= 3; a found exponent always has an inverse (R156). -/
theorem keyGen_isOk {p q : Nat} : (∃ k, keyGen p q = .ok k) ↔ 1 ≤ p ∧ 1 ≤ q ∧ 3 ≤ (p - 1) * (q - 1) := by
  refine ⟨fun ⟨k, hk⟩ => ?_, fun ⟨hp, hq, h3⟩ => ?_⟩
  · obtain ⟨h1, h2, -, h4, h5, -⟩ := keyGen_ok hk
    exact ⟨h1, h2, h4 ▸ publicExponent_isSome.1 ⟨_, h5⟩⟩
  · obtain ⟨e, he⟩ := publicExponent_isSome.2 h3
    obtain ⟨h1, h2, h3', -⟩ := publicExponent_some he
    obtain ⟨d, hd, -⟩ := minv_coprime (show 2 ≤ (p - 1) * (q - 1) by omega) h3'
    refine ⟨{ n := p * q, phi := (p - 1) * (q - 1), e := e, d := d }, ?_⟩
    unfold keyGen
    rw [if_neg (by omega)]
    simp only [he, hd]

end Sys2Proof.Machine
end

