-- ==== Sys2Proof/Laws/Memory.lean ====
section
/-! SUPPORT. Laws of the word memory: what each operation reads as afterwards, and that each keeps the canonical form and
the set of addresses listed. -/

namespace Sys2Proof.Machine

theorem Memory.read_nil (a : Nat) : Memory.read [] a = 0 := rfl

theorem Memory.read_cons (k : Nat) (v : Word) (m : Memory) (a : Nat) :
    Memory.read ((k, v) :: m) a = if k = a then v else Memory.read m a := rfl

/-- An address no entry names reads as an unlisted address. -/
theorem Memory.read_of_not_listed {m : Memory} {a : Nat} (h : ∀ x ∈ m, x.1 ≠ a) : Memory.read m a = 0 := by
  induction m with
  | nil => rfl
  | cons x m ih =>
    obtain ⟨k, v⟩ := x
    rw [Memory.read_cons, if_neg (show k ≠ a from h (k, v) (by simp)), ih fun y hy => h y (by simp [hy])]

theorem Memory.read_append_of_not_listed {m₁ m₂ : Memory} {a : Nat} (h : ∀ x ∈ m₁, x.1 ≠ a) :
    Memory.read (m₁ ++ m₂) a = Memory.read m₂ a := by
  induction m₁ with
  | nil => rfl
  | cons x m ih =>
    obtain ⟨k, v⟩ := x
    rw [List.cons_append, Memory.read_cons, if_neg (show k ≠ a from h (k, v) (by simp)), ih fun y hy => h y (by simp [hy])]

theorem Memory.read_append_of_not_listed_right {m₁ m₂ : Memory} {a : Nat} (h : ∀ x ∈ m₂, x.1 ≠ a) :
    Memory.read (m₁ ++ m₂) a = Memory.read m₁ a := by
  induction m₁ with
  | nil => exact Memory.read_of_not_listed h
  | cons x m ih =>
    obtain ⟨k, v⟩ := x
    rw [List.cons_append, Memory.read_cons, Memory.read_cons, ih]

/-- Dropping entries of other addresses does not change what an address reads as. -/
theorem Memory.read_filter {m : Memory} {f : Nat × Word → Bool} {a : Nat} (h : ∀ x ∈ m, x.1 = a → f x = true) :
    Memory.read (m.filter f) a = Memory.read m a := by
  induction m with
  | nil => rfl
  | cons x m ih =>
    obtain ⟨k, v⟩ := x
    have ih := ih fun y hy => h y (by simp [hy])
    by_cases hf : f (k, v) = true
    · rw [List.filter_cons_of_pos hf, Memory.read_cons, Memory.read_cons, ih]
    · have hk : k ≠ a := fun hk => hf (h (k, v) (by simp) hk)
      rw [List.filter_cons_of_neg hf, Memory.read_cons, if_neg hk, ih]

/-- What a put entry reads as, when the rest does not list its address. -/
theorem Memory.read_put {m : Memory} {a : Nat} {v : Word} (h : ∀ x ∈ m, x.1 ≠ a) (b : Nat) :
    Memory.read (Memory.put a v m) b = if a = b then v else Memory.read m b := by
  unfold Memory.put
  split
  · next hv =>
    split
    · next hab => rw [← hab, Memory.read_of_not_listed h, hv]; rfl
    · rfl
  · rfl

theorem Memory.mem_put {a : Nat} {v : Word} {m : Memory} {x : Nat × Word} (h : x ∈ Memory.put a v m) :
    (x = (a, v) ∧ v ≠ Memory.unlisted) ∨ x ∈ m := by
  unfold Memory.put at h
  split at h
  · exact .inr h
  · next hv => rcases List.mem_cons.1 h with rfl | h
               · exact .inl ⟨rfl, hv⟩
               · exact .inr h

theorem Memory.put_wf {a : Nat} {v : Word} {m : Memory} (hm : Memory.wf m) (h : ∀ x ∈ m, a < x.1) :
    Memory.wf (Memory.put a v m) := by
  unfold Memory.put
  split
  · exact hm
  · next hv =>
    refine ⟨List.pairwise_cons.2 ⟨fun x hx => h x hx, hm.1⟩, fun x hx => ?_⟩
    rcases List.mem_cons.1 hx with rfl | hx
    · exact hv
    · exact hm.2 x hx

/-- Every entry after a write is the one written or an entry from before. -/
theorem Memory.mem_write {m : Memory} {a : Nat} {v : Word} {x : Nat × Word} (h : x ∈ Memory.write m a v) :
    x.1 = a ∨ x ∈ m := by
  induction m with
  | nil => rcases Memory.mem_put h with ⟨rfl, -⟩ | h
           · exact .inl rfl
           · exact .inr h
  | cons y m ih =>
    obtain ⟨k, w⟩ := y
    unfold Memory.write at h
    split at h
    · rcases Memory.mem_put h with ⟨rfl, -⟩ | h
      · exact .inl rfl
      · exact .inr h
    · split at h
      · rcases Memory.mem_put h with ⟨rfl, -⟩ | h
        · exact .inl rfl
        · exact .inr (List.mem_cons_of_mem _ h)
      · rcases List.mem_cons.1 h with rfl | h
        · exact .inr (by simp)
        · exact (ih h).imp id (List.mem_cons_of_mem _)

/-- A write keeps the canonical form. -/
theorem Memory.write_wf {m : Memory} (hm : Memory.wf m) (a : Nat) (v : Word) : Memory.wf (Memory.write m a v) := by
  induction m with
  | nil => exact Memory.put_wf ⟨List.Pairwise.nil, by simp⟩ (by simp)
  | cons y m ih =>
    obtain ⟨k, w⟩ := y
    have hp := List.pairwise_cons.1 hm.1
    have hm' : Memory.wf m := ⟨hp.2, fun x hx => hm.2 x (List.mem_cons_of_mem _ hx)⟩
    unfold Memory.write
    split
    · next hak =>
      refine Memory.put_wf hm fun x hx => ?_
      rcases List.mem_cons.1 hx with rfl | hx
      · exact hak
      · exact Nat.lt_trans hak (hp.1 x hx)
    · split
      · next hak => exact Memory.put_wf hm' fun x hx => hak ▸ hp.1 x hx
      · next h₁ h₂ =>
        refine ⟨List.pairwise_cons.2 ⟨fun x hx => ?_, (ih hm').1⟩, fun x hx => ?_⟩
        · rcases Memory.mem_write hx with h | h
          · simp only; omega
          · exact hp.1 x h
        · rcases List.mem_cons.1 hx with rfl | hx
          · exact hm.2 _ (by simp)
          · exact (ih hm').2 x hx

/-- Read after write, in a memory in canonical form: the address written reads as the word written, every other address as
before. -/
theorem Memory.read_write {m : Memory} (hm : Memory.wf m) (a : Nat) (v : Word) (b : Nat) :
    Memory.read (Memory.write m a v) b = if a = b then v else Memory.read m b := by
  induction m with
  | nil => exact Memory.read_put (by simp) b
  | cons y m ih =>
    obtain ⟨k, w⟩ := y
    have hp := List.pairwise_cons.1 hm.1
    have hm' : Memory.wf m := ⟨hp.2, fun x hx => hm.2 x (List.mem_cons_of_mem _ hx)⟩
    unfold Memory.write
    split
    · next hak =>
      refine Memory.read_put (fun x hx => ?_) b
      rcases List.mem_cons.1 hx with rfl | hx
      · exact Nat.ne_of_gt hak
      · exact Nat.ne_of_gt (Nat.lt_trans hak (hp.1 x hx))
    · split
      · next hak =>
        subst hak
        rw [Memory.read_put fun x hx => Nat.ne_of_gt (hp.1 x hx), Memory.read_cons]
        split <;> rfl
      · next h₁ h₂ =>
        rw [Memory.read_cons, Memory.read_cons, ih hm']
        split <;> split <;> first | rfl | omega

theorem Memory.mem_layout {a : Nat} {ws : List Word} {x : Nat × Word} (h : x ∈ Memory.layout a ws) :
    a ≤ x.1 ∧ x.1 < a + ws.length ∧ x.2 ≠ Memory.unlisted := by
  induction ws generalizing a with
  | nil => cases h
  | cons v vs ih =>
    rcases Memory.mem_put h with ⟨rfl, hv⟩ | h
    · simp [hv]
    · have := ih h
      simp only [List.length_cons]
      exact ⟨by omega, by omega, this.2.2⟩

theorem Memory.layout_wf (a : Nat) (ws : List Word) : Memory.wf (Memory.layout a ws) := by
  induction ws generalizing a with
  | nil => exact ⟨List.Pairwise.nil, by simp [Memory.layout]⟩
  | cons v vs ih => exact Memory.put_wf (ih _) fun x hx => (Memory.mem_layout hx).1

theorem Memory.read_layout (a : Nat) (ws : List Word) (i : Nat) :
    Memory.read (Memory.layout a ws) (a + i) = ws.getD i 0 := by
  induction ws generalizing a i with
  | nil => rfl
  | cons v vs ih =>
    rw [Memory.layout, Memory.read_put fun x hx => Nat.ne_of_gt (Memory.mem_layout hx).1]
    cases i with
    | zero => simp
    | succ i => rw [if_neg (by omega), show a + (i + 1) = a + 1 + i by omega, ih]; simp

/-- Every entry after a window is replaced lies in the window or was there, outside it, before. -/
theorem Memory.mem_replace {m : Memory} {base size : Nat} {ws : List Word} {x : Nat × Word}
    (h : x ∈ m.replace base size ws) : (base ≤ x.1 ∧ x.1 < base + size) ∨ x ∈ m := by
  simp only [Memory.replace, List.mem_append, List.mem_filter] at h
  rcases h with (h | h) | h
  · exact .inr h.1
  · have := Memory.mem_layout h
    have hl := List.length_take_le size ws
    exact .inl ⟨this.1, by omega⟩
  · exact .inr h.1

/-- Replacing a window keeps the canonical form. -/
theorem Memory.replace_wf {m : Memory} (hm : Memory.wf m) (base size : Nat) (ws : List Word) :
    Memory.wf (m.replace base size ws) := by
  have hl := List.length_take_le size ws
  refine ⟨?_, fun x hx => ?_⟩
  · simp only [Memory.replace, List.pairwise_append, List.mem_append, List.mem_filter, decide_eq_true_eq]
    refine ⟨⟨hm.1.filter _, (Memory.layout_wf _ _).1, fun x hx y hy => ?_⟩, hm.1.filter _, fun x hx y hy => ?_⟩
    · have := Memory.mem_layout hy; omega
    · rcases hx with hx | hx
      · omega
      · have := Memory.mem_layout hx; omega
  · simp only [Memory.replace, List.mem_append, List.mem_filter] at hx
    rcases hx with (h | h) | h
    · exact hm.2 x h.1
    · exact (Memory.mem_layout h).2.2
    · exact hm.2 x h.1

/-- Inside a replaced window: the words given, then 0. -/
theorem Memory.read_replace_inside (m : Memory) (base size : Nat) (ws : List Word) {i : Nat} (hi : i < size) :
    Memory.read (m.replace base size ws) (base + i) = ws.getD i 0 := by
  unfold Memory.replace
  rw [Memory.read_append_of_not_listed_right, Memory.read_append_of_not_listed, Memory.read_layout]
  · simp [List.getD_eq_getElem?_getD, hi]
  · intro x hx; simp only [List.mem_filter, decide_eq_true_eq] at hx; omega
  · intro x hx; simp only [List.mem_filter, decide_eq_true_eq] at hx; omega

/-- Outside a replaced window: every address reads as before. -/
theorem Memory.read_replace_outside (m : Memory) (base size : Nat) (ws : List Word) {a : Nat}
    (ha : a < base ∨ base + size ≤ a) : Memory.read (m.replace base size ws) a = Memory.read m a := by
  have hl := List.length_take_le size ws
  unfold Memory.replace
  rcases ha with ha | ha
  · rw [Memory.read_append_of_not_listed_right, Memory.read_append_of_not_listed_right, Memory.read_filter]
    · intro x _ hx; simp [hx, ha]
    · intro x hx; have := Memory.mem_layout hx; omega
    · intro x hx; simp only [List.mem_filter, decide_eq_true_eq] at hx; omega
  · rw [Memory.read_append_of_not_listed, Memory.read_filter]
    · intro x _ hx; simp [hx, ha]
    · intro x hx
      rcases List.mem_append.1 hx with hx | hx
      · simp only [List.mem_filter, decide_eq_true_eq] at hx; omega
      · have := Memory.mem_layout hx; omega

end Sys2Proof.Machine
end

