-- ==== Sys2Proof/Laws/Ops.lean ====
section
/-! SUPPORT. What the shared operations do: the ordered checks, the two completions, and what the memory, the trace and OUT
read as after a commit. -/

namespace Sys2Proof.Machine

/-- A command completes in exactly one of two ways (R236, R237). -/
theorem complete_cases {s t : State} {r : Except ErrorCode Commit} (h : complete s r = .next t) :
    (∃ e, r = .error e ∧ t = s.fail e) ∨ ∃ k, r = .ok k ∧ t = s.commit k := by
  cases r with
  | error e => exact .inl ⟨e, rfl, by simpa [complete] using h.symm⟩
  | ok k => exact .inr ⟨k, rfl, by simpa [complete] using h.symm⟩

theorem complete_ok (s : State) (k : Commit) : complete s (.ok k) = .next (s.commit k) := rfl

theorem complete_error (s : State) (e : ErrorCode) : complete s (.error e) = .next (s.fail e) := rfl

/-- Every completion answers a next state (R238, R267). -/
theorem complete_next (s : State) (r : Except ErrorCode Commit) : ∃ t, complete s r = .next t := by
  cases r <;> exact ⟨_, rfl⟩

@[simp] theorem firstFailure_nil : firstFailure [] = none := rfl

@[simp] theorem firstFailure_cons (b : Bool) (e : ErrorCode) (cs : List (Bool × ErrorCode)) :
    firstFailure ((b, e) :: cs) = if b then some e else firstFailure cs := rfl

/-- No check fails exactly when every condition is false. -/
theorem firstFailure_eq_none {cs : List (Bool × ErrorCode)} :
    firstFailure cs = none ↔ ∀ c ∈ cs, c.1 = false := by
  induction cs with
  | nil => simp
  | cons c cs ih =>
    obtain ⟨b, e⟩ := c
    cases b <;> simp [ih]

/-- The error reported is that of a check of the list. -/
theorem firstFailure_mem {cs : List (Bool × ErrorCode)} {e : ErrorCode} (h : firstFailure cs = some e) :
    (true, e) ∈ cs := by
  induction cs with
  | nil => simp at h
  | cons c cs ih =>
    obtain ⟨b, e'⟩ := c
    cases b with
    | false => exact List.mem_cons_of_mem _ (ih (by simpa using h))
    | true => simp at h; simp [h]

theorem checked_of_pass {cs : List (Bool × ErrorCode)} (h : firstFailure cs = none) (body : Unit → Except ErrorCode Commit) :
    checked cs body = body () := by simp [checked, h]

theorem checked_of_fail {cs : List (Bool × ErrorCode)} {e : ErrorCode} (h : firstFailure cs = some e)
    (body : Unit → Except ErrorCode Commit) : checked cs body = .error e := by simp [checked, h]

/-- A checked body ends in the first failing check's error, or runs with every condition false. -/
theorem checked_cases (cs : List (Bool × ErrorCode)) (body : Unit → Except ErrorCode Commit) :
    (∃ e, firstFailure cs = some e ∧ checked cs body = .error e) ∨
    (firstFailure cs = none ∧ checked cs body = body ()) := by
  cases h : firstFailure cs with
  | none => exact .inr ⟨rfl, checked_of_pass h body⟩
  | some e => exact .inl ⟨e, rfl, checked_of_fail h body⟩

/-- A checked command that succeeds passed every check. -/
theorem checked_ok {cs : List (Bool × ErrorCode)} {body : Unit → Except ErrorCode Commit} {k : Commit}
    (h : checked cs body = .ok k) : firstFailure cs = none ∧ body () = .ok k := by
  rcases checked_cases cs body with ⟨e, -, he⟩ | ⟨hn, hb⟩
  · rw [he] at h; cases h
  · exact ⟨hn, hb ▸ h⟩

/-- Word k of record i in the flat list of words. -/
theorem words_getD (rs : List TraceRecord) (i k : Nat) (hk : k < recordWords) :
    (rs.flatMap TraceRecord.words).getD (recordWords * i + k) 0 = ((rs.getD i TraceRecord.zero).words).getD k 0 := by
  induction rs generalizing i with
  | nil =>
    simp only [recordWords] at hk
    simp only [List.flatMap_nil, List.getD_nil]
    interval_cases k <;> rfl
  | cons r rs ih =>
    have hlen : r.words.length = recordWords := rfl
    rw [List.flatMap_cons]
    cases i with
    | zero => rw [List.getD_append _ _ _ _ (by omega)]; simp
    | succ i =>
      rw [List.getD_append_right _ _ _ _ (by rw [hlen, Nat.mul_succ]; omega), hlen,
        show recordWords * (i + 1) + k - recordWords = recordWords * i + k by rw [Nat.mul_succ]; omega, ih]
      simp

/-- The bus reads the trace window as the records' words, and as 0 beyond them (R36, R95). -/
theorem read_commitTrace (m : Memory) (rs : List TraceRecord) {i k : Nat} (hi : i < traceCap) (hk : k < recordWords) :
    (m.commitTrace rs).read (traceBase + recordWords * i + k) = ((rs.getD i TraceRecord.zero).words).getD k 0 := by
  have : recordWords * i + k < traceCap * recordWords := by simp only [traceCap, recordWords] at *; omega
  rw [Memory.commitTrace, Nat.add_assoc, Memory.read_replace_inside _ _ _ _ this, words_getD rs i k hk]

theorem read_commitTrace_outside (m : Memory) (rs : List TraceRecord) {a : Nat} (ha : a < 0x1000 ∨ 0x2000 ≤ a) :
    (m.commitTrace rs).read a = m.read a :=
  Memory.read_replace_outside _ _ _ _ (by simpa [traceBase, traceCap, recordWords] using ha)

theorem read_commitOut (m : Memory) (out : List Nat) {i : Nat} (hi : i < msgCap) :
    (m.commitOut (some out)).read (outBase + i) = (out.map word).getD i 0 :=
  Memory.read_replace_inside _ _ _ _ hi

theorem read_commitOut_outside (m : Memory) (out : Option (List Nat)) {a : Nat} (ha : a < 0x0200 ∨ 0x0300 ≤ a) :
    (m.commitOut out).read a = m.read a := by
  cases out with
  | none => rfl
  | some out => exact Memory.read_replace_outside _ _ _ _ (by simpa [outBase, msgCap] using ha)

theorem append_low {m n : Nat} (x : BitVec m) (y : BitVec n) : (x ++ y).extractLsb' 0 n = y := by
  ext i hi
  simp [BitVec.getLsbD_append, hi, BitVec.getLsbD_eq_getElem]

theorem append_high {m n : Nat} (x : BitVec m) (y : BitVec n) : (x ++ y).extractLsb' n m = x := by
  ext i hi
  simp [BitVec.getLsbD_append, BitVec.getLsbD_eq_getElem, hi]

/-- A record's words give it back (R95). -/
theorem words_eta (r : TraceRecord) :
    ({ tag := (r.words.getD 0 0).extractLsb' 0 8, idx := (r.words.getD 0 0).extractLsb' 8 24,
       v0 := r.words.getD 1 0, v1 := r.words.getD 2 0, v2 := r.words.getD 3 0, v3 := r.words.getD 4 0 } : TraceRecord) = r := by
  cases r with
  | mk tag idx v0 v1 v2 v3 =>
    simp only [TraceRecord.words, List.getD_cons_zero, List.getD_cons_succ, TraceRecord.mk.injEq, and_true]
    exact ⟨append_low idx tag, append_high idx tag⟩

/-- After a commit the trace buffer holds the command's records, and all-zero records after them (R36, R236). -/
theorem traceRecord_commit (s : State) (k : Commit) {i : Nat} (hi : i < traceCap) :
    (s.commit k).traceRecord i = k.records.getD i TraceRecord.zero := by
  unfold State.traceRecord
  simp only [State.commit_mem]
  rw [read_commitTrace _ _ hi (by decide), read_commitTrace _ _ hi (by decide), read_commitTrace _ _ hi (by decide),
    read_commitTrace _ _ hi (by decide), read_commitTrace _ _ hi (by decide)]
  exact words_eta _

/-- After a commit with a new OUT, OUT holds it, and 0 after it (R35, R236). -/
theorem output_commit (s : State) (k : Commit) {out : List Nat} (ho : k.out = some out) {i : Nat} (hi : i < msgCap) :
    (s.commit k).output i = ((out.map word).getD i 0).toNat := by
  have : outBase + i < 0x1000 := by simp only [outBase, msgCap] at *; omega
  unfold State.output
  rw [State.commit_mem, read_commitTrace_outside _ _ (.inl this), ho, read_commitOut _ _ hi]

/-- A commit changes no word outside OUT and TRACE (R20, R236). -/
theorem read_commit_outside (s : State) (k : Commit) {a : Nat} (ha : a < 0x0200 ∨ 0x0300 ≤ a) (hb : a < 0x1000 ∨ 0x2000 ≤ a) :
    (s.commit k).mem.read a = s.mem.read a := by
  rw [State.commit_mem, read_commitTrace_outside _ _ hb, read_commitOut_outside _ _ ha]

/-- A commit keeps the canonical form. -/
theorem commit_wf {s : State} (h : Memory.wf s.mem) (k : Commit) : Memory.wf (s.commit k).mem := by
  rw [State.commit_mem]
  refine Memory.replace_wf ?_ _ _ _
  cases k.out with
  | none => exact h
  | some out => exact Memory.replace_wf h _ _ _

/-- A commit lists only addresses of OUT and TRACE beside those listed before. -/
theorem commit_mapped {s : State} (h : ∀ x ∈ s.mem, storedAddr x.1 = true) (k : Commit) :
    ∀ x ∈ (s.commit k).mem, storedAddr x.1 = true := by
  intro x hx
  rw [State.commit_mem] at hx
  rcases Memory.mem_replace hx with hx | hx
  · simp [storedAddr, traceBase, traceCap, recordWords] at hx ⊢; omega
  · cases ho : k.out with
    | none => rw [ho] at hx; exact h x hx
    | some out =>
      rw [ho] at hx
      rcases Memory.mem_replace hx with hx | hx
      · simp [storedAddr, outBase, msgCap] at hx ⊢; omega
      · exact h x hx

end Sys2Proof.Machine
end

