-- ==== Sys2Proof/Laws/Operands.lean ====
section
/-! SUPPORT. What the operand reads give after each update of the state: a commit, a failure and a change of the turns leave
every operand, table and message word as it was (spec/10_state.md R20). -/

namespace Sys2Proof.Machine

theorem Table.base_bound (t : Table) : 0x20 ≤ t.base ∧ t.base + t.size ≤ 0x60 := by cases t <;> decide

/-- An entry after a commit: the tables lie outside OUT and TRACE. -/
theorem State.entry_commit (s : State) (k : Commit) (t : Table) (j : Nat) (hj : j ≤ t.size) :
    (s.commit k).entry t j = s.entry t j := by
  have := t.base_bound
  rw [State.entry, State.entry, read_commit_outside _ _ (by omega) (by omega)]

/-- A message word after a commit. -/
theorem State.input_commit (s : State) (k : Commit) {i : Nat} (hi : i < msgCap) : (s.commit k).input i = s.input i := by
  simp only [msgCap] at hi
  rw [State.input, State.input, read_commit_outside _ _ (by simp only [inBase]; omega) (by simp only [inBase]; omega)]

theorem State.firstEntries_congr {s t : State} {T : Table} {n : Nat} (h : ∀ j, 1 ≤ j → j ≤ n → s.entry T j = t.entry T j) :
    s.firstEntries T n = t.firstEntries T n :=
  List.map_congr_left fun j hj => h _ (by omega) (by have := List.mem_range.1 hj; omega)

theorem State.table_commit (s : State) (k : Commit) (t : Table) : (s.commit k).table t = s.table t :=
  State.firstEntries_congr fun j _ hj => s.entry_commit k t j hj

@[simp] theorem State.firstEntries_length (s : State) (t : Table) (n : Nat) : (s.firstEntries t n).length = n := by
  simp [State.firstEntries]

@[simp] theorem State.table_length (s : State) (t : Table) : (s.table t).length = t.size := by simp [State.table]

@[simp] theorem State.firstEntries_getElem (s : State) (t : Table) (n i : Nat) (h : i < (s.firstEntries t n).length) :
    (s.firstEntries t n)[i] = s.entry t (i + 1) := by simp [State.firstEntries]

@[simp] theorem State.table_getElem (s : State) (t : Table) (i : Nat) (h : i < (s.table t).length) :
    (s.table t)[i] = s.entry t (i + 1) := by simp [State.table]

/-- The first n entries are in range exactly when each of T[1], ..., T[n] is (R31). -/
theorem entriesIn_firstEntries {s : State} {t : Table} {n lin : Nat} :
    entriesIn (s.firstEntries t n) lin = true ↔ ∀ k, 1 ≤ k → k ≤ n → 1 ≤ s.entry t k ∧ s.entry t k ≤ lin := by
  simp only [entriesIn, State.firstEntries, List.all_map, List.all_eq_true, List.mem_range, Function.comp_apply,
    Bool.and_eq_true, decide_eq_true_eq]
  refine ⟨fun h k h1 h2 => ?_, fun h j hj => h (j + 1) (by omega) (by omega)⟩
  have := h (k - 1) (by omega)
  rwa [show k - 1 + 1 = k by omega] at this

theorem entriesIn_table {s : State} {t : Table} {lin : Nat} :
    entriesIn (s.table t) lin = true ↔ ∀ k, 1 ≤ k → k ≤ t.size → 1 ≤ s.entry t k ∧ s.entry t k ≤ lin :=
  entriesIn_firstEntries

theorem State.message_length (s : State) : s.message.length = min s.mlen.toNat msgCap := by simp [State.message]

theorem State.message_length_le (s : State) : s.message.length ≤ msgCap := by
  rw [State.message_length]; exact min_le_right _ _

theorem State.message_getElem (s : State) (i : Nat) (h : i < s.message.length) : s.message[i] = s.input i := by
  simp [State.message]

theorem State.mem_message {s : State} {m : Nat} : m ∈ s.message ↔ ∃ i, i < s.mlen.toNat ∧ i < msgCap ∧ s.input i = m := by
  simp [State.message, and_assoc]

theorem State.indexedMessage_length (s : State) : s.indexedMessage.length = s.message.length := by
  simp [State.indexedMessage]

theorem State.indexedMessage_getElem (s : State) (i : Nat) (h : i < s.indexedMessage.length) :
    s.indexedMessage[i] = (i, s.input i) := by
  simp [State.indexedMessage, State.message]

end Sys2Proof.Machine
end

