-- ==== Sys2Proof/Laws/Exec.lean ====
section
/-! SUPPORT. What a completion step can do, said once for the thirteen commands, and what one step of the machine can do. -/

namespace Sys2Proof.Machine

/-- What each command computes, before it is committed or reported. -/
def command : Instr → State → Except ErrorCode Commit
  | .gcd => gcdCommand
  | .modinv => modinvCommand
  | .modexp => modexpCommand
  | .permute => permuteCommand
  | .rotl => rotlCommand
  | .xor => xorCommand
  | .rsaKeygen => rsaKeygenCommand
  | .rsaEnc => rsaEncCommand
  | .rsaDec => rsaDecCommand
  | .sdesKeysched => sdesKeyschedCommand
  | .sdesEnc => sdesEncCommand
  | .sdesDec => sdesDecCommand
  | .sdesF => sdesFCommand

theorem exec_eq_complete (i : Instr) (s : State) : exec i s = complete s (command i s) := by cases i <;> rfl

/-- A command ends in an error, and only STATUS changes, or in a commit (R236, R237). -/
theorem exec_cases {i : Instr} {s t : State} (h : exec i s = .next t) :
    (∃ e, command i s = .error e ∧ t = s.fail e) ∨ ∃ k, command i s = .ok k ∧ t = s.commit k :=
  complete_cases (exec_eq_complete i s ▸ h)

/-- A command always answers a next state (R238, R267). -/
theorem exec_next (i : Instr) (s : State) : ∃ t, exec i s = .next t := exec_eq_complete i s ▸ complete_next s _

theorem exec_of_ok {i : Instr} {s : State} {k : Commit} (h : command i s = .ok k) : exec i s = .next (s.commit k) := by
  rw [exec_eq_complete, h, complete_ok]

theorem exec_of_error {i : Instr} {s : State} {e : ErrorCode} (h : command i s = .error e) :
    exec i s = .next (s.fail e) := by rw [exec_eq_complete, h, complete_error]

/-- A command that derives keys ends in DegenerateKey, or goes on with the keys (R151 to R153). -/
theorem withKeys_cases (s : State) (body : KeyPair → Except ErrorCode Commit) :
    withKeys s body = .error .degenerateKey ∨
    ∃ k, keyGen s.p.toNat s.q.toNat = .ok k ∧ withKeys s body = body k := by
  unfold withKeys
  cases h : keyGen s.p.toNat s.q.toNat with
  | error e => exact .inl (by rw [keyGen_error h])
  | ok k => exact .inr ⟨k, rfl, rfl⟩

/-- What the engine's turn can do (R266): nothing when no command runs, an IllegalCommand completion, or the accepted
command's completion. -/
theorem engineTurn_cases {s t : State} (h : engineTurn s = .next t) :
    (s.status.busy = false ∧ t = s) ∨
    (s.status.busy = true ∧ (∃ e, decode s.cmd = .error e) ∧ t = s.fail .illegalCommand) ∨
    (s.status.busy = true ∧ ∃ i, decode s.cmd = .ok i ∧ exec i s = .next t) := by
  unfold engineTurn at h
  cases hb : s.status.busy with
  | false => rw [hb] at h; exact .inl ⟨rfl, by simpa using h.symm⟩
  | true =>
    rw [hb, if_pos rfl] at h
    cases hd : decode s.cmd with
    | error e => rw [hd] at h; exact .inr (.inl ⟨rfl, ⟨e, rfl⟩, by simpa using h.symm⟩)
    | ok i => rw [hd] at h; exact .inr (.inr ⟨rfl, i, rfl, h⟩)

/-- The engine's turn always answers a next state. -/
theorem engineTurn_next (s : State) : ∃ t, engineTurn s = .next t := by
  unfold engineTurn
  split
  · split
    · exact exec_next _ _
    · exact ⟨_, rfl⟩
  · exact ⟨_, rfl⟩

/-- Whose turn it is, and what the step does (R11, R67). -/
theorem step_cases {s t : State} (h : step s = .next t) :
    (s.outside.turns = [] ∧ engineTurn s = .next t) ∨
    (∃ rest, s.outside.turns = .engine :: rest ∧ engineTurn (s.withTurns rest) = .next t) ∨
    (∃ x rest, s.outside.turns = .host x :: rest ∧ t = hostTurn (s.withTurns rest) x) ∨
    ∃ rest, s.outside.turns = .reset :: rest ∧ t = resetTurn (s.withTurns rest) := by
  unfold step at h
  split at h
  · exact .inl ⟨by assumption, h⟩
  · exact .inr (.inl ⟨_, by assumption, h⟩)
  · exact .inr (.inr (.inl ⟨_, _, by assumption, by simpa using h.symm⟩))
  · exact .inr (.inr (.inr ⟨_, by assumption, by simpa using h.symm⟩))

end Sys2Proof.Machine
end

