-- ==== Sys2Proof/Laws/PerInstr.lean ====
section
/-! SUPPORT. What holds of every command as syntax: it is well-formed, its word is a legal command word, and the decoder
reads it back (spec/30_encoding.md R80, R81, R86). -/

namespace Sys2Proof.Laws.Encoding

/-- The command's word decodes to the command, and its reserved bits are 0. -/
def Statement (i : Instr) : Prop :=
  i.wellFormed = true ∧ legalCommandWord (encode i) = true ∧ decode (encode i) = .ok i

theorem gcd : Statement .gcd := by unfold Statement; exact ⟨rfl, by decide, rfl⟩
theorem modinv : Statement .modinv := by unfold Statement; exact ⟨rfl, by decide, rfl⟩
theorem modexp : Statement .modexp := by unfold Statement; exact ⟨rfl, by decide, rfl⟩
theorem permute : Statement .permute := by unfold Statement; exact ⟨rfl, by decide, rfl⟩
theorem rotl : Statement .rotl := by unfold Statement; exact ⟨rfl, by decide, rfl⟩
theorem xor : Statement .xor := by unfold Statement; exact ⟨rfl, by decide, rfl⟩
theorem rsaKeygen : Statement .rsaKeygen := by unfold Statement; exact ⟨rfl, by decide, rfl⟩
theorem rsaEnc : Statement .rsaEnc := by unfold Statement; exact ⟨rfl, by decide, rfl⟩
theorem rsaDec : Statement .rsaDec := by unfold Statement; exact ⟨rfl, by decide, rfl⟩
theorem sdesKeysched : Statement .sdesKeysched := by unfold Statement; exact ⟨rfl, by decide, rfl⟩
theorem sdesEnc : Statement .sdesEnc := by unfold Statement; exact ⟨rfl, by decide, rfl⟩
theorem sdesDec : Statement .sdesDec := by unfold Statement; exact ⟨rfl, by decide, rfl⟩
theorem sdesF : Statement .sdesF := by unfold Statement; exact ⟨rfl, by decide, rfl⟩

end Sys2Proof.Laws.Encoding
end

