-- ==== Sys2Proof/Tests/Slice0.lean ====
section
/-! SUPPORT. Small tests: what the checks refuse, the decoding of every command's word, one or two vectors of
spec/95_test_vectors.md for each command and for the host bus, and a witness for the hypotheses of every statement that has
some.  Every expected value is the spec's. -/

namespace Sys2Proof.Tests

open Sys2Proof.Machine Sys2Proof.Claims

/-! ## Helpers -/

/-- The next state of an outcome. -/
def stateOf : Host.Outcome State Fault Refusal → Option State
  | .next s => some s
  | .fault _ => none
  | .refused _ => none

/-- The numeric operands A, B and C. -/
def numbers (a b : Nat) (c : Nat := 0) : State := { State.reset with a := word a, b := word b, c := word c }

/-- A and B with LEN = LX | (LY << 8). -/
def bits (a b lx ly : Nat) : State := { State.reset with a := word a, b := word b, len := word (lx + 256 * ly) }

/-- The state with a table loaded. -/
def load (s : State) (t : Table) (vs : List Word) : State := { s with mem := s.mem ++ Memory.layout t.base vs }

/-- P, Q and the message. -/
def rsa (p q : Nat) (msg : List Word) : State :=
  { State.reset with p := word p, q := word q, mlen := word msg.length, mem := Memory.layout inBase msg }

/-- The six standard tables, as spec/95_test_vectors.md gives them, with P10's first entry and IPINV to choose. -/
def tables (first : Word := 3) (ipinv : List Word := [4, 1, 3, 5, 7, 2, 8, 6]) : Memory :=
  Memory.layout 0x0020 ([first, 5, 2, 7, 4, 10, 1, 9, 8, 6] ++ [6, 3, 7, 4, 8, 5, 10, 9] ++ [2, 6, 3, 1, 4, 8, 5, 7] ++ ipinv ++
    [4, 1, 2, 3, 2, 3, 4, 1] ++ [2, 4, 3, 1])

/-- KEY and BLOCK under the standard tables. -/
def sdes (key block : Nat) : State := { State.reset with key := word key, block := word block, mem := tables }

/-- A and B under the standard tables. -/
def half (a b : Nat) : State := { State.reset with a := word a, b := word b, mem := tables }

/-- A command word has been accepted, and these turns are to come. -/
def running (w : Word) (turns : List Turn) (s : State := State.reset) : State := (s.accept w).withTurns turns

/-- STATUS and RES0 to RES3 after a command. -/
def results (i : Instr) (s : State) : Option (Word × Word × Word × Word × Word) :=
  (stateOf (exec i s)).map fun t => (t.status.toWord, t.res0, t.res1, t.res2, t.res3)

/-! ## The checks refuse ill-formed terms -/

theorem test_reserved_bits_refused : reservedClear 0x00000101 = false := by decide
theorem test_unknown_opcode_refused : opcodeListed 0x00000024 = false := by decide
theorem test_opcode_zero_refused : legalCommandWord 0x00000000 = false := by decide
theorem test_legal_word_accepted : legalCommandWord 0x00000023 = true := by decide
theorem test_table_entry_zero_refused : (HostName.entry .p10 0).wellFormed = false := by decide
theorem test_table_entry_above_refused : (HostName.entry .p4 5).wellFormed = false := by decide
theorem test_input_above_refused : (HostName.input 256).wellFormed = false := by decide
theorem test_output_above_refused : (HostName.output 256).wellFormed = false := by decide
theorem test_trace_record_above_refused : (HostName.trace 512 0).wellFormed = false := by decide
theorem test_trace_word_above_refused : (HostName.trace 0 8).wellFormed = false := by decide

/-! ## Decoding: the words of R81, written out as RSVD and OP bits -/

theorem test_decode_gcd : decode 0b00000000000000000000000000000001 = .ok .gcd := by rfl
theorem test_decode_modinv : decode 0b00000000000000000000000000000010 = .ok .modinv := by rfl
theorem test_decode_modexp : decode 0b00000000000000000000000000000011 = .ok .modexp := by rfl
theorem test_decode_permute : decode 0b00000000000000000000000000001000 = .ok .permute := by rfl
theorem test_decode_rotl : decode 0b00000000000000000000000000001001 = .ok .rotl := by rfl
theorem test_decode_xor : decode 0b00000000000000000000000000001010 = .ok .xor := by rfl
theorem test_decode_rsaKeygen : decode 0b00000000000000000000000000010000 = .ok .rsaKeygen := by rfl
theorem test_decode_rsaEnc : decode 0b00000000000000000000000000010001 = .ok .rsaEnc := by rfl
theorem test_decode_rsaDec : decode 0b00000000000000000000000000010010 = .ok .rsaDec := by rfl
theorem test_decode_sdesKeysched : decode 0b00000000000000000000000000100000 = .ok .sdesKeysched := by rfl
theorem test_decode_sdesEnc : decode 0b00000000000000000000000000100001 = .ok .sdesEnc := by rfl
theorem test_decode_sdesDec : decode 0b00000000000000000000000000100010 = .ok .sdesDec := by rfl
theorem test_decode_sdesF : decode 0b00000000000000000000000000100011 = .ok .sdesF := by rfl
theorem test_decode_zero : decode 0b00000000000000000000000000000000 = .error .unknownOpcode := by rfl
theorem test_decode_reserved : decode 0b10000000000000000000000000000001 = .error .reservedBitsSet := by rfl
theorem test_decode_table_word : decodeTableWord 32 0x11 = some .rsaEnc := by rfl

/-! ## One step of each command (spec/95_test_vectors.md, L2) -/

theorem test_gcd : results .gcd (numbers 48 18) = some (0x2, 6, 0, 0, 0) := by decide
theorem test_gcd_zero : results .gcd (numbers 0 0) = some (0x2, 0, 0, 0, 0) := by decide
theorem test_modinv_large_e : results .modinv (numbers 27 20) = some (0xA, 3, 0, 0, 0) := by decide
theorem test_modinv_not_found : results .modinv (numbers 2 4) = some (0x2, 0, 0, 0, 0) := by decide
theorem test_modexp : results .modexp (numbers 65 3 33) = some (0x2, 32, 0, 0, 0) := by decide
theorem test_modexp_modulus_zero : results .modexp (numbers 3 200 0) = some (0x106, 0, 0, 0, 0) := by decide
theorem test_permute :
    results .permute (load (bits 0xBD 0 8 8) .gt [2, 6, 3, 1, 4, 8, 5, 7]) = some (0x2, 0x7E, 8, 0, 0) := by decide
theorem test_permute_zero_entry :
    results .permute (load (bits 0xBD 0 8 8) .gt [0, 1, 2, 3, 4, 5, 6, 7]) = some (0x206, 0, 0, 0, 0) := by decide
theorem test_rotl : results .rotl (bits 0xBD 0xFFFFFFFF 8 0) = some (0x2, 0xDE, 0, 0, 0) := by decide
theorem test_rotl_ignores_ly : results .rotl (bits 1 0 1 31) = some (0x2, 1, 0, 0, 0) := by decide
theorem test_xor : results .xor (bits 0xA 0x6 4 4) = some (0x2, 0xC, 0, 0, 0) := by decide
theorem test_xor_mismatch : results .xor (bits 5 2 3 2) = some (0x306, 0, 0, 0, 0) := by decide
theorem test_rsaKeygen : results .rsaKeygen (rsa 61 53 []) = some (0x2, 3233, 3120, 7, 1783) := by decide
theorem test_rsaKeygen_degenerate : results .rsaKeygen (rsa 2 3 []) = some (0x406, 0, 0, 0, 0) := by decide
theorem test_rsaEnc :
    (stateOf (exec .rsaEnc (rsa 61 53 [72, 73]))).map (fun t => (t.output 0, t.output 1, t.output 2, t.traceLen)) =
      some (1087, 286, 0, 8) := by decide
theorem test_rsaEnc_checks_first : results .rsaEnc (rsa 2 2 [0x110000]) = some (0x106, 0, 0, 0, 0) := by decide
theorem test_rsaDec :
    (stateOf (exec .rsaDec (rsa 61 53 [1087, 286]))).map (fun t => (t.output 0, t.output 1, t.output 2, t.traceLen)) =
      some (72, 73, 0, 8) := by decide
theorem test_rsaDec_invalid : results .rsaDec (rsa 65521 65519 [0x96D0A09C]) = some (0x506, 0, 0, 0, 0) := by decide
theorem test_sdesKeysched : results .sdesKeysched (sdes 0x282 0) = some (0x2, 0xA4, 0x43, 0, 0) := by decide
theorem test_sdesKeysched_unloaded :
    results .sdesKeysched { State.reset with key := 0x282 } = some (0x206, 0, 0, 0, 0) := by decide
theorem test_sdesEnc : results .sdesEnc (sdes 0x282 0xBD) = some (0x2, 0x75, 0xA4, 0x43, 0) := by decide +kernel
theorem test_sdesEnc_key_first : results .sdesEnc { State.reset with key := 0x400 } = some (0x106, 0, 0, 0, 0) := by decide
theorem test_sdesDec : results .sdesDec (sdes 0x282 0x75) = some (0x2, 0xBD, 0xA4, 0x43, 0) := by decide +kernel
theorem test_sdesF : results .sdesF (half 0xE 0xA4) = some (0x2, 0xB, 0, 0, 0) := by decide
theorem test_sdesF_trace :
    (stateOf (exec .sdesF (half 0xE 0xA4))).map (fun t => (t.traceRecord 2, t.traceRecord 3)) =
      some ({ tag := 0x2D, idx := 0, v0 := 0xD, v1 := 3, v2 := 2, v3 := 3 },
        { tag := 0x2E, idx := 0, v0 := 9, v1 := 3, v2 := 0, v3 := 2 }) := by decide

/-! ## The bus, the turns and reset -/

theorem test_step_runs_the_accepted_word :
    (stateOf (step ((numbers 48 18).withFetchWord 32 0x01))).map (fun t => (t.cmd, t.res0)) = some (1, 6) := by decide
theorem test_illegal_word_completes :
    (stateOf (step (State.reset.withFetchWord 32 0x24))).map (fun t => t.status.toWord) = some 0x606 := by decide
theorem test_write_while_busy :
    (stateOf (step (running 1 [.host (.write 0x0002 5)]))).map (fun t => (t.a, t.status.toWord)) = some (0, 0x11) := by decide
theorem test_write_keeps_all_bits :
    (stateOf (step (State.reset.withTurns [.host (.write 0x0007 0x400)]))).map (fun t => busRead t 0x0007) = some 0x400 := by
  decide
theorem test_sbox_rom : busRead State.reset 0x006E = 3 ∧ busRead State.reset 0x0078 = 3 := by decide
/-- Row 3, column 0 and row 0, column 3: the corners that tell a row from a column (R33). -/
theorem test_sbox_names :
    busRead State.reset (HostName.sbox0 3 0).addr = 3 ∧ busRead State.reset (HostName.sbox0 0 3).addr = 2 ∧
    busRead State.reset (HostName.sbox1 3 0).addr = 2 ∧ busRead State.reset (HostName.sbox1 0 3).addr = 3 := by decide
theorem test_trace_word_zero :
    (stateOf (exec .gcd (numbers 48 18))).map (fun t => (busRead t 0x1000, busRead t 0x1001)) = some (0x1, 48) := by decide
theorem test_reset_while_busy :
    (stateOf (step (running 1 [.reset] (numbers 48 18)))).map (fun t => (t.a, t.status.toWord)) = some (0, 0) := by decide
theorem test_run_program :
    ((State.reset.withProgram [.wr (.operand .a) 48, .wr (.operand .b) 18, .run .gcd 1, .rd (.res 0)]).outside.turns) =
      [.host (.write 0x0002 48), .host (.write 0x0003 18), .host (.write 0x0000 1), .host (.read 0x0001), .engine,
        .host (.read 0x0001), .host (.read 0x0010)] := by decide

/-! ## Witnesses: every statement's hypotheses can be met -/

theorem witness_EngineTurnRunsTheDecodedCommand :
    (running 0x23 []).status.busy = true ∧ decode (running 0x23 []).cmd = .ok .sdesF ∧ (running 0x23 []).outside.turns = [] ∧
    (running 0x23 [.engine, .reset]).outside.turns = .engine :: [.reset] := ⟨rfl, rfl, rfl, rfl⟩

theorem witness_IllegalWordsCompleteWithIllegalCommand :
    State.reset.status.busy = false ∧ illegalWord 0x00000000 ∧ illegalWord 0x00000024 ∧ illegalWord 0x00000101 ∧
    (State.reset.withTurns [.host (.write 0x0000 0x24), .engine]).outside.turns =
      .host (.write 0x0000 0x24) :: .engine :: [] := by
  refine ⟨rfl, ?_, ?_, ?_, rfl⟩ <;> unfold illegalWord <;> decide

theorem witness_IdleEngineTurnChangesNothing :
    State.reset.status.busy = false ∧ (State.reset.withTurns [.engine, .reset]).outside.turns = .engine :: [.reset] := ⟨rfl, rfl⟩

/-- A running state with a table entry loaded, which meets the invariant. -/
theorem inv_running (turns : List Turn) : (running 1 turns (load State.reset .p10 [3])).Inv where
  status := .inr (.inl ⟨rfl, rfl, rfl, rfl, rfl⟩)
  canonical := (by decide : Memory.wf [(0x20, 3)])
  mapped := (by decide : ∀ x ∈ ([(0x20, 3)] : Memory), storedAddr x.1 = true)
  traceLen := Nat.zero_le _
  reserved := fun i _ k _ _ => by
    refine Memory.read_of_not_listed (m := [(0x20, 3)]) fun x hx => ?_
    simp only [List.mem_singleton] at hx
    subst hx
    simp only [traceBase]
    omega
  beyond := fun i _ _ => by
    have h (k : Nat) : Memory.read [(0x20, 3)] (traceBase + recordWords * i + k) = 0 :=
      Memory.read_of_not_listed fun x hx => by
        simp only [List.mem_singleton] at hx
        subst hx
        simp only [traceBase]
        omega
    have hm : (running 1 turns (load State.reset .p10 [3])).mem = [(0x20, 3)] := rfl
    simp only [State.traceRecord, hm, h]
    rfl
  tags := fun i hi => absurd hi (Nat.not_lt_zero i)

theorem witness_EveryStepKeepsTheInvariant :
    (running 1 [.host (.write 0x0002 5)] (load State.reset .p10 [3])).Inv ∧
    ∃ t, step (running 1 [.host (.write 0x0002 5)] (load State.reset .p10 [3])) = .next t := ⟨inv_running _, _, rfl⟩

theorem witness_ResetClearsEveryRegister : (running 1 [.reset, .engine]).outside.turns = .reset :: [.engine] := rfl

theorem witness_AfterResetTheBusReadsZero :
    ¬ (0x0060 ≤ (0x005F : Addr).toNat ∧ (0x005F : Addr).toNat ≤ 0x007F) ∧
    ¬ (0x0060 ≤ (0x0080 : Addr).toNat ∧ (0x0080 : Addr).toNat ≤ 0x007F) ∧ 3 < 4 := by decide

theorem witness_WritingCmdAcceptsACommand :
    State.reset.status.busy = false ∧ (State.reset.withTurns [.host (.write 0x0000 1)]).outside.turns = [.host (.write 0x0000 1)] ∧
    (running 1 [.host (.write 0x0000 2)]).status.busy = true ∧
    (running 1 [.host (.write 0x0000 2)]).outside.turns = [.host (.write 0x0000 2)] ∧
    ∃ t, step (running 1 [.host (.write 0x0000 2)]) = .next t ∧ t.status.busy = true := ⟨rfl, rfl, rfl, rfl, _, rfl, rfl⟩

theorem witness_WritesWhileBusyAreDropped :
    (running 1 [.host (.write 0xFFFF 5)]).status.busy = true ∧
    (running 1 [.host (.write 0xFFFF 5)]).outside.turns = [.host (.write 0xFFFF 5)] ∧
    ∃ s t, step (running 1 [.host (.write 0x0000 5), .engine]) = .next s ∧ s.status.busyWr = true ∧ step s = .next t ∧
      s.outside.turns = [.engine] := ⟨rfl, rfl, _, _, rfl, rfl, rfl, rfl⟩

theorem witness_ReadsChangeNothing :
    (running 1 [.host (.read 0x0010)]).outside.turns = [.host (.read 0x0010)] := rfl

theorem witness_TheWordWrittenIsTheWordRead :
    Memory.wf State.reset.mem ∧ State.reset.status.busy = false ∧
    readWriteAddr 0x0002 ∧ readWriteAddr 0x000A ∧ readWriteAddr 0x0020 ∧ readWriteAddr 0x004D ∧ readWriteAddr 0x0050 ∧
    readWriteAddr 0x005F ∧ readWriteAddr 0x0100 ∧ readWriteAddr 0x01FF ∧
    (State.reset.withTurns [.host (.write 0x01FF 7)]).outside.turns = [.host (.write 0x01FF 7)] := by
  refine ⟨by decide, rfl, ?_, ?_, ?_, ?_, ?_, ?_, ?_, ?_, rfl⟩ <;> unfold readWriteAddr <;> decide

theorem witness_ReadOnlyAndUnmappedAddresses :
    (readOnlyAddr 0x0001 ∧ readOnlyAddr 0x0010 ∧ readOnlyAddr 0x0013 ∧ readOnlyAddr 0x0018 ∧ readOnlyAddr 0x0060 ∧
      readOnlyAddr 0x007F ∧ readOnlyAddr 0x0200 ∧ readOnlyAddr 0x02FF ∧ readOnlyAddr 0x1000 ∧ readOnlyAddr 0x1FFF) ∧
    (unmappedAddr 0x000B ∧ unmappedAddr 0x000F ∧ unmappedAddr 0x0014 ∧ unmappedAddr 0x0017 ∧ unmappedAddr 0x0019 ∧
      unmappedAddr 0x001F ∧ unmappedAddr 0x004E ∧ unmappedAddr 0x004F ∧ unmappedAddr 0x0080 ∧ unmappedAddr 0x00FF ∧
      unmappedAddr 0x0300 ∧ unmappedAddr 0x0FFF ∧ unmappedAddr 0x2000 ∧ unmappedAddr 0xFFFF) ∧
    (running 1 [.host (.write 0x0001 7)]).outside.turns = [.host (.write 0x0001 7)] ∧
    ((5 ≤ 5 ∧ 5 ≤ 7) ∨ 12 ≤ 5) ∧ ((5 ≤ 12 ∧ 12 ≤ 7) ∨ 12 ≤ 12) ∧
    (running 1 [] (load State.reset .p10 [3])).Inv ∧ 511 < 512 ∧ 5 ≤ 7 ∧ 7 < 8 := by
  refine ⟨?_, ?_, rfl, by decide, by decide, inv_running _, by decide, by decide, by decide⟩
  · refine ⟨?_, ?_, ?_, ?_, ?_, ?_, ?_, ?_, ?_, ?_⟩ <;> unfold readOnlyAddr <;> decide
  · refine ⟨?_, ?_, ?_, ?_, ?_, ?_, ?_, ?_, ?_, ?_, ?_, ?_, ?_, ?_⟩ <;> unfold unmappedAddr <;> decide

theorem witness_EveryNameIsReadAtItsAddress :
    ((1 ≤ 1 ∧ 1 ≤ Table.size .p10) ∧ (1 ≤ 4 ∧ 4 ≤ Table.size .p4) ∧ (1 ≤ 16 ∧ 16 ≤ Table.size .gt) ∧ 255 < 256 ∧ 511 < 512) ∧
    (running 1 [] (load State.reset .p10 [3])).Inv ∧ 5 ≤ 5 ∧ 5 ≤ 7 ∧ 7 < 8 :=
  ⟨by decide, inv_running _, by decide⟩

theorem witness_WaitEndsWithBusyClear :
    (running 1 (waitTurns 2)).status.busy = true ∧ (running 1 (waitTurns 2)).outside.turns = waitTurns 2 ++ [] ∧
    (running 1 (waitTurns 0)).outside.turns = waitTurns 0 ++ [] := ⟨rfl, rfl, rfl⟩

theorem witness_HostTurnsDoNotReachARunningCommand :
    (running 1 [.host (.write 0x0002 9), .host (.read 0x0001), .engine]).status.busy = true ∧
    (running 1 [.host (.write 0x0002 9), .host (.read 0x0001), .engine]).outside.turns =
      [Transaction.write 0x0002 9, .read 0x0001].map Turn.host ++ .engine :: [] := ⟨rfl, rfl⟩

theorem witness_ErrorsChangeOnlyStatus :
    ∃ t, exec .modexp (numbers 3 200 0) = .next t ∧ t.status.err = true := ⟨_, rfl, by decide⟩

theorem witness_CommandsChangeOnlyTheirResults :
    (∃ t, exec .gcd (numbers 48 18) = .next t) ∧ Instr.gcd ≠ .rsaEnc ∧ Instr.gcd ≠ .rsaDec ∧ 0x0200 ≤ 0x02FF ∧ 0x02FF < 0x0300 ∧
    0x01FF < 0x0200 ∧ 0x0300 ≤ 0x0FFF ∧ 0x0FFF < 0x1000 ∧ 0x2000 ≤ 0x2000 := ⟨⟨_, rfl⟩, by decide⟩

theorem witness_CommandsRaiseOnlyTheirErrors :
    ∃ t, exec .xor (bits 5 2 3 2) = .next t ∧ t.status.err = true := ⟨_, rfl, by decide⟩

theorem witness_SuccessfulCommandsLeaveTheirRecords :
    ∃ t, exec .gcd (numbers 48 18) = .next t ∧ t.status.err = false ∧ 1 < 512 ∧ recordCount .gcd (numbers 48 18) ≤ 1 ∧
      Instr.gcd ≠ .modinv := ⟨_, rfl, by decide⟩

theorem witness_ResultsDependOnlyOnWhatIsRead :
    sameReads .gcd (numbers 48 18) (numbers 48 18 7) ∧ numbers 48 18 ≠ numbers 48 18 7 ∧
    (∃ t, exec .gcd (numbers 48 18) = .next t ∧ t.status.err = false) ∧
    sameReads .rsaEnc (rsa 61 53 [72]) { rsa 61 53 [72] with key := 1 } :=
  ⟨⟨rfl, rfl⟩, by decide, ⟨_, rfl, by decide⟩, rfl, rfl, rfl, fun _ _ => rfl, rfl⟩

theorem witness_ModinvSearchesTheInverse :
    IsInverse (numbers 3 20).a.toNat (numbers 3 20).b.toNat 7 ∧
    ∀ d, 1 ≤ d → d < (numbers 2 4).b.toNat → (numbers 2 4).a.toNat * d % (numbers 2 4).b.toNat ≠ 1 := by
  refine ⟨⟨by decide, by decide, by decide, fun x h1 h2 => ?_⟩, fun d h1 h2 => ?_⟩
  · interval_cases x <;> decide
  · change d < 4 at h2
    interval_cases d <;> decide

theorem witness_ModexpRaisesToThePower : (numbers 7 0 0).c.toNat = 0 ∧ (numbers 5 0 1).c.toNat ≠ 0 := by decide

/-- The premises the utilities share, at the longest and the shortest lengths. -/
theorem witness_PermuteAppliesTheGenericTable :
    (lenReserved (bits 1 0 33 1) ∧ lx (bits 1 0 0 1) < 1 ∧ 16 < lx (bits 1 0 17 1) ∧ ly (bits 1 0 1 0) < 1 ∧
      16 < ly (bits 1 0 1 17) ∧ 2 ^ lx (bits 2 0 1 1) ≤ (bits 2 0 1 1).a.toNat) ∧
    (¬ lenReserved (bits 0xFFFF 0 16 1) ∧ 1 ≤ lx (bits 0xFFFF 0 16 1) ∧ lx (bits 0xFFFF 0 16 1) ≤ 16 ∧
      1 ≤ ly (bits 0xFFFF 0 16 1) ∧ ly (bits 0xFFFF 0 16 1) ≤ 16 ∧
      (bits 0xFFFF 0 16 1).a.toNat < 2 ^ lx (bits 0xFFFF 0 16 1) ∧ ¬ tableIn (bits 0xFFFF 0 16 1) .gt 1 16) ∧
    tableIn (load (bits 0xFFFF 0 16 1) .gt [16]) .gt 1 16 ∧
    ¬ lenReserved (load (bits 0xFFFF 0 16 1) .gt [16]) ∧ lx (load (bits 0xFFFF 0 16 1) .gt [16]) = 16 ∧
    ly (load (bits 0xFFFF 0 16 1) .gt [16]) = 1 := by
  refine ⟨?_, ⟨?_, ?_⟩, entriesIn_firstEntries.1 (by decide), ?_, by decide, by decide⟩
  · unfold lenReserved; decide
  · unfold lenReserved; decide
  · refine ⟨by decide, by decide, by decide, by decide, by decide, fun h => ?_⟩
    exact absurd (h 1 (by decide) (by decide)) (by decide)
  · unfold lenReserved; decide

theorem witness_RotlRotatesLeft :
    (lenReserved (bits 1 0 33 1) ∧ lx (bits 1 0 0 1) < 1 ∧ 16 < lx (bits 1 0 17 1) ∧
      2 ^ lx (bits 2 0 1 1) ≤ (bits 2 0 1 1).a.toNat) ∧
    ¬ lenReserved (bits 0xFFFF 1 16 31) ∧ 1 ≤ lx (bits 0xFFFF 1 16 31) ∧ lx (bits 0xFFFF 1 16 31) ≤ 16 ∧
    (bits 0xFFFF 1 16 31).a.toNat < 2 ^ lx (bits 0xFFFF 1 16 31) := by unfold lenReserved; decide

theorem witness_XorCombinesEqualLengths :
    (lenReserved (bits 1 0 33 1) ∧ 16 < ly (bits 5 2 3 20) ∧ 2 ^ ly (bits 1 4 1 2) ≤ (bits 1 4 1 2).b.toNat) ∧
    (¬ lenReserved (bits 1 2 1 2) ∧ 1 ≤ lx (bits 1 2 1 2) ∧ lx (bits 1 2 1 2) ≤ 16 ∧ 1 ≤ ly (bits 1 2 1 2) ∧
      ly (bits 1 2 1 2) ≤ 16 ∧ (bits 1 2 1 2).a.toNat < 2 ^ lx (bits 1 2 1 2) ∧
      (bits 1 2 1 2).b.toNat < 2 ^ ly (bits 1 2 1 2) ∧ lx (bits 1 2 1 2) ≠ ly (bits 1 2 1 2)) ∧
    ¬ lenReserved (bits 0xFFFF 1 16 16) ∧ lx (bits 0xFFFF 1 16 16) ≤ 16 ∧
    lx (bits 0xFFFF 1 16 16) = ly (bits 0xFFFF 1 16 16) ∧ (bits 0xFFFF 1 16 16).a.toNat < 2 ^ lx (bits 0xFFFF 1 16 16) ∧
    (bits 0xFFFF 1 16 16).b.toNat < 2 ^ ly (bits 0xFFFF 1 16 16) := by unfold lenReserved; decide

/-- P = 3, Q = 11 has a key: e = 3 is coprime to phi = 20. -/
theorem has_key (msg : List Word) : ¬ noKey (rsa 3 11 msg) := by
  rintro (h | h | h)
  · exact absurd h (show ¬ 3 = 0 by decide)
  · exact absurd h (show ¬ 11 = 0 by decide)
  · exact h 3 (by decide) (show 3 < 20 by decide) (show Nat.gcd 3 20 = 1 by decide)

/-- P = 2, Q = 3 has none: phi = 2 leaves no candidate. -/
theorem has_no_key (msg : List Word) : noKey (rsa 2 3 msg) := by
  refine .inr (.inr fun e h1 h2 => ?_)
  change e < 2 at h2
  omega

theorem witness_RsaKeygenDerivesTheKeys :
    pqTooWide (rsa 65536 3 []) ∧ pqTooWide (rsa 3 65536 []) ∧ (¬ pqTooWide (rsa 2 3 []) ∧ noKey (rsa 2 3 [])) ∧
    ¬ pqTooWide (rsa 3 11 []) ∧ ¬ noKey (rsa 3 11 []) := by
  refine ⟨?_, ?_, ⟨?_, has_no_key _⟩, ?_, has_key _⟩ <;> unfold pqTooWide <;> decide

theorem witness_DegenerateKeysAreExactlyThese : ¬ pqTooWide (rsa 65535 65535 []) := by unfold pqTooWide; decide

theorem witness_RsaEncEncryptsTheMessage :
    (256 < { rsa 3 11 [] with mlen := 257 }.mlen.toNat) ∧
    ((rsa 3 11 [0x110000]).mlen.toNat ≤ 256 ∧
      ∃ i < (rsa 3 11 [0x110000]).mlen.toNat, (rsa 3 11 [0x110000]).cfg.cpMax < (rsa 3 11 [0x110000]).input i) ∧
    (¬ pqTooWide (rsa 2 3 [1]) ∧ (∀ i < (rsa 2 3 [1]).mlen.toNat, (rsa 2 3 [1]).input i ≤ (rsa 2 3 [1]).cfg.cpMax) ∧
      noKey (rsa 2 3 [1])) ∧
    ¬ pqTooWide (rsa 3 11 [0x10FFFF]) ∧ (rsa 3 11 [0x10FFFF]).mlen.toNat ≤ 256 ∧
    (∀ i < (rsa 3 11 [0x10FFFF]).mlen.toNat, (rsa 3 11 [0x10FFFF]).input i ≤ (rsa 3 11 [0x10FFFF]).cfg.cpMax) ∧
    ¬ noKey (rsa 3 11 [0x10FFFF]) := by
  refine ⟨by decide, ⟨by decide, 0, by decide, by decide⟩, ⟨?_, by decide, has_no_key _⟩, ?_, by decide, by decide, has_key _⟩
  all_goals unfold pqTooWide; decide

theorem witness_RsaDecDecryptsTheMessage :
    256 < { rsa 3 11 [] with mlen := 257 }.mlen.toNat ∧
    (¬ pqTooWide (rsa 2 3 [1]) ∧ (rsa 2 3 [1]).mlen.toNat ≤ 256 ∧ noKey (rsa 2 3 [1])) ∧
    (¬ pqTooWide (rsa 3 11 [32]) ∧ (rsa 3 11 [32]).mlen.toNat ≤ 256 ∧ ¬ noKey (rsa 3 11 [32]) ∧
      ∀ i < (rsa 3 11 [32]).mlen.toNat, (rsa 3 11 [32]).input i ^ 7 % (3 * 11) ≤ (rsa 3 11 [32]).cfg.cpMax) ∧
    ∃ i < (rsa 3 11 [32]).mlen.toNat,
      ({ rsa 3 11 [32] with cfg := { Config.default with cpMax := 31 } } : State).cfg.cpMax < (rsa 3 11 [32]).input i ^ 7 % (3 * 11) := by
  refine ⟨by decide, ⟨?_, by decide, has_no_key _⟩, ⟨?_, by decide, has_key _, by decide⟩, 0, by decide, by decide⟩
  all_goals unfold pqTooWide; decide

theorem witness_RsaDecInvertsRsaEnc :
    (rsa 3 11 [2, 0]).p.toNat.Prime ∧ (rsa 3 11 [2, 0]).q.toNat.Prime ∧ (rsa 3 11 [2, 0]).p ≠ (rsa 3 11 [2, 0]).q ∧
    2 < (rsa 3 11 [2, 0]).p.toNat ∧ 2 < (rsa 3 11 [2, 0]).q.toNat ∧ (rsa 3 11 [2, 0]).mlen.toNat = 2 ∧
    (rsa 3 11 [2, 0]).p.toNat < 2 ^ 16 ∧ (rsa 3 11 [2, 0]).q.toNat < 2 ^ 16 ∧
    (∀ i < (rsa 3 11 [2, 0]).mlen.toNat, (rsa 3 11 [2, 0]).input i < (rsa 3 11 [2, 0]).p.toNat * (rsa 3 11 [2, 0]).q.toNat ∧
      (rsa 3 11 [2, 0]).input i ≤ (rsa 3 11 [2, 0]).cfg.cpMax) ∧
    (rsa 3 11 [2, 0]).input 0 = 2 :=
  ⟨Nat.prime_three, (by norm_num : Nat.Prime 11), by decide, by decide, by decide, by decide, by decide, by decide, by decide,
    by decide⟩

/-- The decrypting state of the same statement: P, Q, MLEN and the parameters are the encrypting state's, IN is the OUT that
RSA_ENC left (2^3 mod 33 = 8, 0^3 mod 33 = 0), and another register differs. -/
theorem witness_RsaDecInvertsRsaEnc_decrypting :
    ∃ t, exec .rsaEnc (rsa 3 11 [2, 0]) = .next t ∧ t.status.err = false ∧
      ∃ r : State, r.p = (rsa 3 11 [2, 0]).p ∧ r.q = (rsa 3 11 [2, 0]).q ∧ r.mlen = (rsa 3 11 [2, 0]).mlen ∧
        r.cfg = (rsa 3 11 [2, 0]).cfg ∧ (∀ i < (rsa 3 11 [2, 0]).mlen.toNat, r.input i = t.output i) ∧
        r.input 0 = 8 ∧ r.key ≠ (rsa 3 11 [2, 0]).key :=
  ⟨_, rfl, rfl, { rsa 3 11 [8, 0] with key := 1 }, rfl, rfl, rfl, rfl, by decide, by decide, by decide⟩

/-- The standard tables are in range. -/
theorem tables_in (key block : Nat) : sdesTablesIn (sdes key block) :=
  ⟨entriesIn_firstEntries.1 rfl, entriesIn_firstEntries.1 rfl, entriesIn_firstEntries.1 rfl, entriesIn_firstEntries.1 rfl,
    entriesIn_firstEntries.1 rfl, entriesIn_firstEntries.1 rfl⟩

/-- After reset no table is. -/
theorem tables_not_in : ¬ sdesTablesIn State.reset := fun h => absurd (h.1 1 (by decide) (by decide)) (by decide)

theorem witness_SdesKeyschedDerivesTheSubkeys :
    2 ^ 10 ≤ (sdes 0x400 0).key.toNat ∧
    (State.reset.key.toNat < 2 ^ 10 ∧ ¬ (tableIn State.reset .p10 10 10 ∧ tableIn State.reset .p8 8 10)) ∧
    (sdes 0x3FF 0).key.toNat < 2 ^ 10 ∧ tableIn (sdes 0x3FF 0) .p10 10 10 ∧ tableIn (sdes 0x3FF 0) .p8 8 10 :=
  ⟨by decide, ⟨by decide, fun h => absurd (h.1 1 (by decide) (by decide)) (by decide)⟩, by decide, (tables_in _ _).1,
    (tables_in _ _).2.1⟩

theorem witness_SdesFAppliesTheRoundFunction :
    2 ^ 4 ≤ (half 0x10 0).a.toNat ∧ 2 ^ 8 ≤ (half 1 0x100).b.toNat ∧
    ((numbers 15 255).a.toNat < 2 ^ 4 ∧ (numbers 15 255).b.toNat < 2 ^ 8 ∧
      ¬ (tableIn (numbers 15 255) .ep 8 4 ∧ tableIn (numbers 15 255) .p4 4 4)) ∧
    (half 15 255).a.toNat < 2 ^ 4 ∧ (half 15 255).b.toNat < 2 ^ 8 ∧ tableIn (half 15 255) .ep 8 4 ∧ tableIn (half 15 255) .p4 4 4 :=
  ⟨by decide, by decide, ⟨by decide, by decide, fun h => absurd (h.1 1 (by decide) (by decide)) (by decide)⟩, by decide, by decide,
    entriesIn_firstEntries.1 rfl, entriesIn_firstEntries.1 rfl⟩

theorem witness_SdesEncEncryptsTheBlock :
    sdesMalformed (sdes 0x400 0) ∧ sdesMalformed (sdes 0 0x100) ∧ (¬ sdesMalformed State.reset ∧ ¬ sdesTablesIn State.reset) ∧
    ¬ sdesMalformed (sdes 0x3FF 0xFF) ∧ sdesTablesIn (sdes 0x3FF 0xFF) := by
  refine ⟨?_, ?_, ⟨?_, tables_not_in⟩, ?_, tables_in _ _⟩ <;> unfold sdesMalformed <;> decide

theorem witness_SdesDecDecryptsTheBlock :
    sdesMalformed (sdes 0x400 0) ∧ sdesMalformed (sdes 0 0x100) ∧ (¬ sdesMalformed State.reset ∧ ¬ sdesTablesIn State.reset) ∧
    ¬ sdesMalformed (sdes 0x3FF 0) ∧ sdesTablesIn (sdes 0x3FF 0) := by
  refine ⟨?_, ?_, ⟨?_, tables_not_in⟩, ?_, tables_in _ _⟩ <;> unfold sdesMalformed <;> decide

theorem witness_SdesDecInvertsSdesEnc :
    ¬ sdesMalformed (sdes 0x282 0xBD) ∧ sdesTablesIn (sdes 0x282 0xBD) ∧
    ∀ i, 1 ≤ i → i ≤ 8 → (sdes 0x282 0xBD).entry .ipinv ((sdes 0x282 0xBD).entry .ip i) = i ∧
      (sdes 0x282 0xBD).entry .ip ((sdes 0x282 0xBD).entry .ipinv i) = i := by
  refine ⟨?_, tables_in _ _, fun i h1 h2 => ?_⟩
  · unfold sdesMalformed; decide
  · interval_cases i <;> decide

end Sys2Proof.Tests
end

/-! PROOFS. The decoder on illegal command words, one step by whose turn it is, and the path of an illegal word from the
host's write of CMD to its completion (spec/30_encoding.md R80, R84; spec/60_exceptions.md R235, R237). -/

namespace Sys2Proof.Machine

open Sys2Proof.Claims

/-! ### The decoder's two checks, in the numbers R84 is written in -/

@[simp] theorem opField_toNat (w : Word) : (opField w).toNat = w.toNat % 2 ^ 8 := by
  simp [opField]

@[simp] theorem rsvdField_toNat (w : Word) : (rsvdField w).toNat = w.toNat / 2 ^ 8 := by
  have hw : w.toNat < 2 ^ 32 := w.isLt
  rw [rsvdField, BitVec.extractLsb'_toNat, Nat.shiftRight_eq_div_pow, Nat.mod_eq_of_lt (by omega)]

/-- RSVD is 0 as a field exactly when the word has nothing above OP (R80). -/
theorem rsvdField_eq_zero_iff (w : Word) : rsvdField w = 0 ↔ w.toNat / 2 ^ 8 = 0 := by
  rw [← BitVec.toNat_inj, rsvdField_toNat, BitVec.ofNat_eq_ofNat, BitVec.toNat_ofNat, Nat.zero_mod]

/-- The opcode map has no command exactly where R81 lists no opcode. -/
theorem decodeOpcode_eq_none_iff (op : BitVec 8) : decodeOpcode op = none ↔ op.toNat ∉ listedOpcodes := by
  unfold decodeOpcode
  split <;> simp_all [listedOpcodes]

/-- Every word R84 calls illegal decodes to no command. -/
theorem decode_error_of_illegalWord {w : Word} (h : illegalWord w) : ∃ e, decode w = .error e := by
  unfold decode
  by_cases hr : rsvdField w = 0
  · have hop : w.toNat % 2 ^ 8 ∉ listedOpcodes := h.resolve_left (not_not.2 ((rsvdField_eq_zero_iff w).1 hr))
    have hnone : decodeOpcode (opField w) = none := (decodeOpcode_eq_none_iff _).2 (by rwa [opField_toNat])
    exact ⟨.unknownOpcode, by rw [if_pos hr, hnone]⟩
  · exact ⟨.reservedBitsSet, if_neg hr⟩

/-! ### One step, by whose turn it is -/

theorem step_of_host_turn {s : State} {x : Transaction} {rest : List Turn} (h : s.outside.turns = .host x :: rest) :
    step s = .next (hostTurn (s.withTurns rest) x) := by
  simp only [step, h]

theorem step_of_engine_turn {s : State} {rest : List Turn} (h : s.outside.turns = .engine :: rest) :
    step s = engineTurn (s.withTurns rest) := by
  simp only [step, h]

/-- A host write of CMD while no command runs is an accept (R27, R235). -/
theorem hostTurn_write_cmd_of_idle {s : State} (h : s.status.busy = false) (w : Word) :
    hostTurn s (.write 0x0000 w) = s.accept w := by
  obtain ⟨hb, -⟩ | ⟨-, hw⟩ := busWrite_cases s 0x0000 w
  · simp [h] at hb
  · exact hw

/-- A running word that decodes to no command completes with IllegalCommand (R84). -/
theorem engineTurn_of_decode_error {s : State} {e : DecodeError} (hb : s.status.busy = true)
    (hd : decode s.cmd = .error e) : engineTurn s = .next (s.fail .illegalCommand) := by
  rw [engineTurn, if_pos hb, hd]

/-- An error completion is what R237 says, with the error's code. -/
theorem fail_eq_errored (s : State) (e : ErrorCode) : s.fail e = errored s e.code := rfl

/-- The engine's turn on a running word that decodes to no command: only STATUS and the turns to come change (R84, R237). -/
theorem step_engine_of_decode_error {s : State} {rest : List Turn} {e : DecodeError}
    (ht : s.outside.turns = .engine :: rest) (hb : s.status.busy = true) (hd : decode s.cmd = .error e) :
    step s = .next (errored (s.withTurns rest) 6) :=
  calc step s = engineTurn (s.withTurns rest) := step_of_engine_turn ht
    _ = .next ((s.withTurns rest).fail .illegalCommand) := engineTurn_of_decode_error hb hd
    _ = .next (errored (s.withTurns rest) 6) := congrArg _ (fail_eq_errored _ .illegalCommand)

/-- Settles O4: the host's turn is an accept, and the engine's turn finds a word in CMD that decodes to no command. -/
theorem illegalWordsCompleteWithIllegalCommand : Obligations.IllegalWordsCompleteWithIllegalCommand := by
  intro s w rest hidle hw hturns
  obtain ⟨e, hd⟩ := decode_error_of_illegalWord hw
  refine ⟨(s.withTurns (.engine :: rest)).accept w, ?_, rfl, ?_⟩
  · rw [step_of_host_turn hturns, hostTurn_write_cmd_of_idle (by rwa [State.withTurns_status])]
  · exact step_engine_of_decode_error rfl rfl hd

end Sys2Proof.Machine

/-! PROOFS. What a successful completion leaves, said once for every command, and the three commands of the number engine
(spec/40_numeric.md R110 to R122; spec/60_exceptions.md R236, R237). -/

namespace Sys2Proof.Machine

open Sys2Proof.Claims

/-! ### A completion, in the words of the statements -/

theorem word_toNat_of_lt {n : Nat} (h : n < 2 ^ 32) : (word n).toNat = n :=
  (BitVec.toNat_ofNat n 32).trans (Nat.mod_eq_of_lt h)

/-- A commit whose results and record count fit their registers completes with exactly them (R236). -/
theorem commit_completesWith (s : State) (k : Commit) (h0 : k.res0 < 2 ^ 32) (h1 : k.res1 < 2 ^ 32) (h2 : k.res2 < 2 ^ 32)
    (h3 : k.res3 < 2 ^ 32) (hrecs : k.records.length < 2 ^ 32) :
    CompletesWith s (s.commit k) k.found k.res0 k.res1 k.res2 k.res3 k.records where
  status := rfl
  res0 := word_toNat_of_lt h0
  res1 := word_toNat_of_lt h1
  res2 := word_toNat_of_lt h2
  res3 := word_toNat_of_lt h3
  traceLen := word_toNat_of_lt hrecs
  trace _ hi := traceRecord_commit s k hi

/-- A command that computes one result and one record completes with them, and with 0 in RES1 to RES3 (R236). -/
theorem exec_completesWith_one {i : Instr} {s : State} {r : Nat} {found : Bool} {rec : TraceRecord}
    (h : command i s = .ok { res0 := r, found := found, records := [rec] }) (hr : r < 2 ^ 32) :
    ∃ t, exec i s = .next t ∧ CompletesWith s t found r 0 0 0 [rec] :=
  have zero_fits : 0 < 2 ^ 32 := Nat.two_pow_pos 32
  ⟨_, exec_of_ok h, commit_completesWith s _ hr zero_fits zero_fits zero_fits (by decide : 1 < 2 ^ 32)⟩

/-! ### GCD (R120) -/

theorem command_gcd (s : State) :
    command .gcd s = .ok
      { res0 := Nat.gcd s.a.toNat s.b.toNat,
        records := [record 0x01 0 s.a.toNat s.b.toNat (Nat.gcd s.a.toNat s.b.toNat)] } := by
  rw [command, gcdCommand, euclid_eq_gcd]
  rfl

theorem gcd_lt_of_lt {a b n : Nat} (ha : a < n) (hb : b < n) : Nat.gcd a b < n := by
  rcases Nat.eq_zero_or_pos a with rfl | hpos
  · rwa [Nat.gcd_zero_left]
  · exact (Nat.gcd_le_left b hpos).trans_lt ha

/-- Settles O26: the model's Euclid loop is the greatest common divisor, which fits RES0 since A and B are words. -/
theorem gcdGivesTheGreatestCommonDivisor : Obligations.GcdGivesTheGreatestCommonDivisor := by
  refine ⟨Laws.Encoding.gcd.2.2, fun s => ?_⟩
  exact exec_completesWith_one (command_gcd s) (gcd_lt_of_lt s.a.isLt s.b.isLt)

/-! ### MODINV (R121) -/

theorem command_modinv_of_some {s : State} {d : Nat} (h : minv s.a.toNat s.b.toNat = some d) :
    command .modinv s = .ok { res0 := d, found := true, records := [record 0x02 0 s.a.toNat s.b.toNat d 1] } := by
  rw [command, modinvCommand, h]
  rfl

theorem command_modinv_of_none {s : State} (h : minv s.a.toNat s.b.toNat = none) :
    command .modinv s = .ok { res0 := 0, found := false, records := [record 0x02 0 s.a.toNat s.b.toNat 0 0] } := by
  rw [command, modinvCommand, h]
  rfl

/-- Settles O27: the closed form of the inverse finds d exactly when d is an inverse in [1, B), and nothing exactly when
there is none. -/
theorem modinvSearchesTheInverse : Obligations.ModinvSearchesTheInverse := by
  refine ⟨Laws.Encoding.modinv.2.2, fun s d hd => ?_, fun s hnone => ?_⟩
  · obtain ⟨hpos, hlt, hinv, -⟩ := hd
    have hfound : minv s.a.toNat s.b.toNat = some d := minv_eq_some_iff.2 ⟨hpos, hlt, hinv⟩
    exact exec_completesWith_one (command_modinv_of_some hfound) (hlt.trans s.b.isLt)
  · have hmissing : minv s.a.toNat s.b.toNat = none := minv_eq_none_iff.2 hnone
    exact exec_completesWith_one (command_modinv_of_none hmissing) (Nat.two_pow_pos 32)

/-! ### MODEXP (R122) -/

theorem command_modexp_of_modulus_zero {s : State} (h : s.c.toNat = 0) :
    command .modexp s = .error .malformedInput := by
  rw [command, modexpCommand]
  exact checked_of_fail (by simp [h]) _

theorem command_modexp_of_modulus_ne_zero {s : State} (h : s.c.toNat ≠ 0) :
    command .modexp s = .ok
      { res0 := s.a.toNat ^ s.b.toNat % s.c.toNat,
        records := [record 0x03 0 s.a.toNat s.b.toNat s.c.toNat (s.a.toNat ^ s.b.toNat % s.c.toNat)] } := by
  rw [command, modexpCommand, checked_of_pass (firstFailure_eq_none.2 (by simpa using h)), powmod_eq]
  rfl

/-- Settles O29: the one check is C = 0; behind it square-and-multiply is the power modulo C, which is below C and so fits
RES0. -/
theorem modexpRaisesToThePower : Obligations.ModexpRaisesToThePower := by
  refine ⟨Laws.Encoding.modexp.2.2, fun s hc => ?_, fun s hc => ?_⟩
  · rw [exec_of_error (command_modexp_of_modulus_zero hc), fail_eq_errored]
    rfl
  · have hlt : s.a.toNat ^ s.b.toNat % s.c.toNat < 2 ^ 32 := (Nat.mod_lt _ (Nat.pos_of_ne_zero hc)).trans s.c.isLt
    exact exec_completesWith_one (command_modexp_of_modulus_ne_zero hc) hlt

end Sys2Proof.Machine

/-! PROOFS. The three bit utilities: their checks in the numbers R133 is written in, the results position by position, and
what each command ends in (spec/41_bitops.md R130 to R136). -/

namespace Sys2Proof.Machine

open Sys2Proof.Claims

/-! ### The length fields and the checks of R133 -/

@[simp] theorem State.lx_eq (s : State) : s.lx = Claims.lx s := by
  rw [State.lx, slice, pow_zero, Nat.div_one]
  rfl

@[simp] theorem State.ly_eq (s : State) : s.ly = Claims.ly s := rfl

/-- LEN is a word, so the slice LEN[31:13] is all that stands above bit 12. -/
@[simp] theorem State.lenReservedSet_iff {s : State} : s.lenReservedSet = true ↔ lenReserved s := by
  have hlen : s.len.toNat < 2 ^ 32 := s.len.isLt
  have htop : slice s.len.toNat 31 13 = s.len.toNat / 2 ^ 13 := Nat.mod_eq_of_lt (by omega)
  rw [State.lenReservedSet, htop, Bool.or_eq_true, bne_iff_ne, bne_iff_ne]
  rfl

@[simp] theorem badLength_iff {l : Nat} : badLength l = true ↔ l < 1 ∨ 16 < l := by
  rw [badLength, Bool.or_eq_true, decide_eq_true_eq, decide_eq_true_eq, blenMax]

@[simp] theorem checkLen_error (s : State) : (checkLen s).2 = .malformedInput := rfl
@[simp] theorem checkLx_error (s : State) : (checkLx s).2 = .malformedInput := rfl
@[simp] theorem checkLy_error (s : State) : (checkLy s).2 = .malformedInput := rfl
@[simp] theorem checkA_error (s : State) : (checkA s).2 = .malformedInput := rfl
@[simp] theorem checkB_error (s : State) : (checkB s).2 = .malformedInput := rfl

@[simp] theorem checkLen_fails {s : State} : (checkLen s).1 = true ↔ lenReserved s := State.lenReservedSet_iff
@[simp] theorem checkLx_fails {s : State} : (checkLx s).1 = true ↔ lx s < 1 ∨ 16 < lx s := by simp [checkLx]
@[simp] theorem checkLy_fails {s : State} : (checkLy s).1 = true ↔ ly s < 1 ∨ 16 < ly s := badLength_iff
@[simp] theorem checkA_fails {s : State} : (checkA s).1 = true ↔ 2 ^ lx s ≤ s.a.toNat := by simp [checkA]
@[simp] theorem checkB_fails {s : State} : (checkB s).1 = true ↔ 2 ^ ly s ≤ s.b.toNat := decide_eq_true_iff

/-! ### Checks that share an error, before the others -/

theorem firstFailure_append_of_same_error {cs : List (Bool × ErrorCode)} {e : ErrorCode} (hsame : ∀ c ∈ cs, c.2 = e)
    (ds : List (Bool × ErrorCode)) :
    firstFailure (cs ++ ds) = if cs.any Prod.fst then some e else firstFailure ds := by
  induction cs with
  | nil => rfl
  | cons c cs ih =>
    obtain ⟨fails, e'⟩ := c
    obtain ⟨rfl, hrest⟩ := List.forall_mem_cons.1 hsame
    cases fails with
    | true => rfl
    | false => exact ih hrest

/-- When one of the first checks fails, their common error is the command's, whatever the later checks say (R232). -/
theorem checked_append_of_fail {cs : List (Bool × ErrorCode)} {e : ErrorCode} (hsame : ∀ c ∈ cs, c.2 = e)
    (hfail : cs.any Prod.fst = true) (ds : List (Bool × ErrorCode)) (body : Unit → Except ErrorCode Commit) :
    checked (cs ++ ds) body = .error e :=
  checked_of_fail ((firstFailure_append_of_same_error hsame ds).trans (if_pos hfail)) body

/-- When none of the first checks fails, the later ones decide (R232). -/
theorem checked_append_of_pass {cs : List (Bool × ErrorCode)} {e : ErrorCode} (hsame : ∀ c ∈ cs, c.2 = e)
    (hpass : ¬ cs.any Prod.fst = true) (ds : List (Bool × ErrorCode)) (body : Unit → Except ErrorCode Commit) :
    checked (cs ++ ds) body = checked ds body := by
  rw [checked, checked, firstFailure_append_of_same_error hsame ds, if_neg hpass]

theorem exec_errored_of_error {i : Instr} {s : State} {e : ErrorCode} (h : command i s = .error e) :
    exec i s = .next (errored s e.code) := by
  rw [exec_of_error h, fail_eq_errored]

/-- A bitstring of at most 16 bits fits a result register. -/
theorem lt_word_of_lt_pow {o l : Nat} (ho : o < 2 ^ l) (hl : l ≤ 16) : o < 2 ^ 32 :=
  ho.trans_le (Nat.pow_le_pow_right (by decide) (by omega))

/-! ### PERMUTE (R134) -/

/-- A table's first k entries, applied by the model's fold, give the string R130 describes. -/
theorem isPerm_perm_firstEntries (s : State) (t : Table) (v l k : Nat) :
    IsPerm v l (s.entry t) k (perm v l (s.firstEntries t k)) := by
  have hlt := perm_lt v l (s.firstEntries t k)
  rw [State.firstEntries_length] at hlt
  refine ⟨hlt, fun i hi hik => ?_⟩
  have hbit := bitAt_perm v l (s.firstEntries t k) (i - 1) (by rw [State.firstEntries_length]; omega)
  rwa [State.firstEntries_getElem, State.firstEntries_length, show k - 1 - (i - 1) = k - i by omega,
    Nat.sub_add_cancel hi] at hbit

/-- A check of R133 that PERMUTE makes fails. -/
def permuteMalformed (s : State) : Prop :=
  lenReserved s ∨ lx s < 1 ∨ 16 < lx s ∨ ly s < 1 ∨ 16 < ly s ∨ 2 ^ lx s ≤ s.a.toNat

theorem permuteChecks_any_iff {s : State} :
    [checkLen s, checkLx s, checkLy s, checkA s].any Prod.fst = true ↔ permuteMalformed s := by
  simp [permuteMalformed, or_assoc]

theorem permuteChecks_error (s : State) :
    ∀ c ∈ [checkLen s, checkLx s, checkLy s, checkA s], c.2 = .malformedInput := by simp

/-- PERMUTE makes the checks of R133 first, and the table's behind them (R134). -/
theorem command_permute (s : State) :
    command .permute s =
      checked ([checkLen s, checkLx s, checkLy s, checkA s] ++
        [(!entriesIn (s.firstEntries .gt (ly s)) (lx s), .tableIndexOutOfRange)]) fun _ =>
      .ok { res0 := perm s.a.toNat (lx s) (s.firstEntries .gt (ly s)), res1 := ly s,
            records := [record 0x08 0 s.a.toNat (lx s) (perm s.a.toNat (lx s) (s.firstEntries .gt (ly s))) (ly s)] } := by
  rw [← State.lx_eq]
  rfl

theorem command_permute_of_malformed {s : State} (h : permuteMalformed s) :
    command .permute s = .error .malformedInput := by
  rw [command_permute, checked_append_of_fail (permuteChecks_error s) (permuteChecks_any_iff.2 h)]

theorem command_permute_of_table_out {s : State} (h : ¬ permuteMalformed s) (ht : ¬ tableIn s .gt (ly s) (lx s)) :
    command .permute s = .error .tableIndexOutOfRange := by
  have hout : entriesIn (s.firstEntries .gt (ly s)) (lx s) = false :=
    Bool.eq_false_iff.2 (mt entriesIn_firstEntries.1 ht)
  rw [command_permute, checked_append_of_pass (permuteChecks_error s) (mt permuteChecks_any_iff.1 h), hout]
  rfl

theorem command_permute_of_table_in {s : State} (h : ¬ permuteMalformed s) (ht : tableIn s .gt (ly s) (lx s)) :
    command .permute s = .ok
      { res0 := perm s.a.toNat (lx s) (s.firstEntries .gt (ly s)), res1 := ly s,
        records := [record 0x08 0 s.a.toNat (lx s) (perm s.a.toNat (lx s) (s.firstEntries .gt (ly s))) (ly s)] } := by
  rw [command_permute, checked_append_of_pass (permuteChecks_error s) (mt permuteChecks_any_iff.1 h),
    entriesIn_firstEntries.2 ht]
  rfl

/-- Settles O30: the checks of R133 come before the table's, and behind both the model's fold over GT[1..LY] is the
permutation, whose LY bits fit RES0. -/
theorem permuteAppliesTheGenericTable : Obligations.PermuteAppliesTheGenericTable := by
  refine ⟨Laws.Encoding.permute.2.2, fun s hbad => ?_, fun s hlen hx1 hx16 hy1 hy16 ha => ⟨fun ht => ?_, fun ht => ?_⟩⟩
  · exact exec_errored_of_error (command_permute_of_malformed hbad)
  all_goals have hok : ¬ permuteMalformed s := not_or.2 ⟨hlen, by omega⟩
  · exact exec_errored_of_error (command_permute_of_table_out hok ht)
  · have hperm := isPerm_perm_firstEntries s .gt s.a.toNat (lx s) (ly s)
    have hzero : 0 < 2 ^ 32 := Nat.two_pow_pos 32
    exact ⟨_, _, exec_of_ok (command_permute_of_table_in hok ht), hperm,
      commit_completesWith s _ (lt_word_of_lt_pow hperm.1 hy16) (lt_word_of_lt_pow Nat.lt_two_pow_self hy16) hzero hzero
        (by decide : 1 < 2 ^ 32)⟩

/-! ### ROTL (R135) -/

theorem isRot_rotl {v l : Nat} (hl : 1 ≤ l) (hv : v < 2 ^ l) (n : Nat) : IsRot v l n (rotl v l n) :=
  ⟨rotl_lt hv n, fun i hi => bitAt_rotl hl hv n i hi⟩

/-- A check of R133 that ROTL makes fails: LY is not among them. -/
def rotlMalformed (s : State) : Prop :=
  lenReserved s ∨ lx s < 1 ∨ 16 < lx s ∨ 2 ^ lx s ≤ s.a.toNat

theorem rotlChecks_any_iff {s : State} :
    [checkLen s, checkLx s, checkA s].any Prod.fst = true ↔ rotlMalformed s := by
  simp [rotlMalformed, or_assoc]

theorem rotlChecks_error (s : State) : ∀ c ∈ [checkLen s, checkLx s, checkA s], c.2 = .malformedInput := by simp

theorem command_rotl (s : State) :
    command .rotl s = checked ([checkLen s, checkLx s, checkA s] ++ []) fun _ =>
      .ok { res0 := rotl s.a.toNat (lx s) s.b.toNat,
            records := [record 0x09 0 s.a.toNat (lx s) s.b.toNat (rotl s.a.toNat (lx s) s.b.toNat)] } := by
  rw [← State.lx_eq]
  rfl

theorem command_rotl_of_malformed {s : State} (h : rotlMalformed s) : command .rotl s = .error .malformedInput := by
  rw [command_rotl, checked_append_of_fail (rotlChecks_error s) (rotlChecks_any_iff.2 h)]

theorem command_rotl_of_not_malformed {s : State} (h : ¬ rotlMalformed s) :
    command .rotl s = .ok
      { res0 := rotl s.a.toNat (lx s) s.b.toNat,
        records := [record 0x09 0 s.a.toNat (lx s) s.b.toNat (rotl s.a.toNat (lx s) s.b.toNat)] } := by
  rw [command_rotl, checked_append_of_pass (rotlChecks_error s) (mt rotlChecks_any_iff.1 h)]
  rfl

/-- Settles O31: no check reads LY or B, and the model's rotation by B mod LX is the one R131 describes. -/
theorem rotlRotatesLeft : Obligations.RotlRotatesLeft := by
  refine ⟨Laws.Encoding.rotl.2.2, fun s hbad => ?_, fun s hlen hx1 hx16 ha => ?_⟩
  · exact exec_errored_of_error (command_rotl_of_malformed hbad)
  · have hok : ¬ rotlMalformed s := not_or.2 ⟨hlen, by omega⟩
    have hrot := isRot_rotl hx1 ha s.b.toNat
    obtain ⟨t, hexec, hdone⟩ :=
      exec_completesWith_one (command_rotl_of_not_malformed hok) (lt_word_of_lt_pow hrot.1 hx16)
    exact ⟨t, _, hexec, hrot, hdone⟩

/-! ### XOR (R136) -/

/-- Bit j of the exclusive or is 1 exactly when bit j of the operands differs (R132). -/
theorem bitAt_xorBits_eq_ite (a b j : Nat) : bitAt (xorBits a b) j = if bitAt a j = bitAt b j then 0 else 1 := by
  have ha := bitAt_lt_two a j
  have hb := bitAt_lt_two b j
  rw [bitAt_xorBits]
  split <;> omega

/-- One of the five checks of R133 fails. -/
def xorMalformed (s : State) : Prop :=
  lenReserved s ∨ lx s < 1 ∨ 16 < lx s ∨ ly s < 1 ∨ 16 < ly s ∨ 2 ^ lx s ≤ s.a.toNat ∨ 2 ^ ly s ≤ s.b.toNat

theorem xorChecks_any_iff {s : State} :
    [checkLen s, checkLx s, checkLy s, checkA s, checkB s].any Prod.fst = true ↔ xorMalformed s := by
  simp [xorMalformed, or_assoc]

theorem xorChecks_error (s : State) :
    ∀ c ∈ [checkLen s, checkLx s, checkLy s, checkA s, checkB s], c.2 = .malformedInput := by simp

/-- XOR makes the checks of R133 first, and compares the lengths behind them (R136). -/
theorem command_xor (s : State) :
    command .xor s =
      checked ([checkLen s, checkLx s, checkLy s, checkA s, checkB s] ++ [(lx s != ly s, .lengthMismatch)]) fun _ =>
      .ok { res0 := xorBits s.a.toNat s.b.toNat,
            records := [record 0x0A 0 s.a.toNat s.b.toNat (lx s) (xorBits s.a.toNat s.b.toNat)] } := by
  rw [← State.lx_eq]
  rfl

theorem command_xor_of_malformed {s : State} (h : xorMalformed s) : command .xor s = .error .malformedInput := by
  rw [command_xor, checked_append_of_fail (xorChecks_error s) (xorChecks_any_iff.2 h)]

theorem command_xor_of_lengths_ne {s : State} (h : ¬ xorMalformed s) (hne : lx s ≠ ly s) :
    command .xor s = .error .lengthMismatch := by
  rw [command_xor, checked_append_of_pass (xorChecks_error s) (mt xorChecks_any_iff.1 h), bne_iff_ne.2 hne]
  rfl

theorem command_xor_of_lengths_eq {s : State} (h : ¬ xorMalformed s) (heq : lx s = ly s) :
    command .xor s = .ok
      { res0 := xorBits s.a.toNat s.b.toNat,
        records := [record 0x0A 0 s.a.toNat s.b.toNat (lx s) (xorBits s.a.toNat s.b.toNat)] } := by
  rw [command_xor, checked_append_of_pass (xorChecks_error s) (mt xorChecks_any_iff.1 h), bne_eq_false_iff_eq.2 heq]
  rfl

/-- Settles O32: the five checks come before the comparison of the lengths, and operands of equal length have an exclusive
or of that length. -/
theorem xorCombinesEqualLengths : Obligations.XorCombinesEqualLengths := by
  refine ⟨Laws.Encoding.xor.2.2, fun s hbad => ?_, fun s hlen hx1 hx16 hy1 hy16 ha hb => ⟨fun hne => ?_, fun heq => ?_⟩⟩
  · exact exec_errored_of_error (command_xor_of_malformed hbad)
  all_goals have hok : ¬ xorMalformed s := not_or.2 ⟨hlen, by omega⟩
  · exact exec_errored_of_error (command_xor_of_lengths_ne hok hne)
  · have hlt : xorBits s.a.toNat s.b.toNat < 2 ^ lx s := xorBits_lt ha (heq ▸ hb)
    obtain ⟨t, hexec, hdone⟩ :=
      exec_completesWith_one (command_xor_of_lengths_eq hok heq) (lt_word_of_lt_pow hlt hx16)
    exact ⟨t, _, hexec, ⟨hlt, fun j _ => bitAt_xorBits_eq_ite _ _ j⟩, hdone⟩

end Sys2Proof.Machine

/-! PROOFS. The three commands of the RSA engine: what key generation derives, the checks of R150 in the numbers it is
written in, and what each command ends in (spec/42_rsa.md R150 to R167). -/

namespace Sys2Proof.Machine

open Sys2Proof.Claims

/-! ### Key generation, in the words of the statements -/

/-- The key pair with n and phi as R151 says, and a given e and d. -/
def keyPair (s : State) (e d : Nat) : KeyPair := { n := s.p.toNat * s.q.toNat, phi := phi s, e := e, d := d }

/-- An inverse in [1, phi) is unique, so the closed form gives the first one upward (R112, R153). -/
theorem isInverse_of_minv {e phi d : Nat} (h : minv e phi = some d) : IsInverse e phi d := by
  obtain ⟨hpos, hlt, hinv⟩ := minv_eq_some_iff.1 h
  refine ⟨hpos, hlt, hinv, fun x _ hxd hx => ?_⟩
  have hsame : x = d := inverse_unique (hxd.trans hlt) hlt hx hinv
  omega

/-- Key generation derives n, phi, the smallest exponent and its first inverse (R151 to R153). -/
theorem keyGen_ok_eq_keyPair {s : State} {k : KeyPair} (h : keyGen s.p.toNat s.q.toNat = .ok k) :
    k = keyPair s k.e k.d ∧ IsExponent s k.e ∧ IsInverse k.e (phi s) k.d := by
  obtain ⟨-, -, hn, hphi, he, hd⟩ := keyGen_ok h
  have hphi' : k.phi = phi s := hphi
  rw [hphi'] at he hd
  exact ⟨by rw [keyPair, ← hn, ← hphi'], publicExponent_some he, isInverse_of_minv hd⟩

theorem keyGen_of_not_noKey {s : State} (h : ¬ noKey s) :
    ∃ e d, keyGen s.p.toNat s.q.toNat = .ok (keyPair s e d) ∧ IsExponent s e ∧ IsInverse e (phi s) d := by
  obtain ⟨hp, hq, hall⟩ : s.p.toNat ≠ 0 ∧ s.q.toNat ≠ 0 ∧ ¬ ∀ e, 2 ≤ e → e < phi s → Nat.gcd e (phi s) ≠ 1 := by
    simpa only [noKey, not_or] using h
  have hphi : 3 ≤ phi s := by
    by_contra hsmall
    exact hall fun e he2 helt => by omega
  obtain ⟨k, hk⟩ := keyGen_isOk.2 ⟨Nat.pos_of_ne_zero hp, Nat.pos_of_ne_zero hq, hphi⟩
  obtain ⟨heq, he, hd⟩ := keyGen_ok_eq_keyPair hk
  exact ⟨k.e, k.d, heq ▸ hk, he, hd⟩

theorem withKeys_of_ok {s : State} {k : KeyPair} (h : keyGen s.p.toNat s.q.toNat = .ok k)
    (body : KeyPair → Except ErrorCode Commit) : withKeys s body = body k := by
  rw [withKeys, h]

/-- A command that derives keys ends in DegenerateKey when there are none (R151, R152). -/
theorem withKeys_of_noKey {s : State} (h : noKey s) (body : KeyPair → Except ErrorCode Commit) :
    withKeys s body = .error .degenerateKey := by
  obtain herr | ⟨k, hk, -⟩ := withKeys_cases s body
  · exact herr
  · obtain ⟨hp, hq, -⟩ := keyGen_ok hk
    obtain ⟨-, ⟨he2, helt, hg, -⟩, -⟩ := keyGen_ok_eq_keyPair hk
    obtain hp0 | hq0 | hnone := h
    · omega
    · omega
    · exact absurd hg (hnone k.e he2 helt)

/-! ### The sizes of the keys -/

theorem modulus_lt {s : State} (h : ¬ pqTooWide s) : s.p.toNat * s.q.toNat < 2 ^ 32 := by
  obtain ⟨hp, hq⟩ : s.p.toNat < 2 ^ 16 ∧ s.q.toNat < 2 ^ 16 := by simpa only [pqTooWide, not_or, not_le] using h
  calc s.p.toNat * s.q.toNat < 2 ^ 16 * 2 ^ 16 := Nat.mul_lt_mul'' hp hq
    _ = 2 ^ 32 := (Nat.pow_add 2 16 16).symm

theorem phi_le_modulus (s : State) : phi s ≤ s.p.toNat * s.q.toNat :=
  Nat.mul_le_mul (Nat.sub_le _ _) (Nat.sub_le _ _)

/-- With p and q below 2^16, a commit of keys and at most 262 records completes with exactly them (R116, R236). -/
theorem commit_keys_completesWith {s : State} {e d : Nat} (hpq : ¬ pqTooWide s) (he : IsExponent s e)
    (hd : IsInverse e (phi s) d) (out : Option (List Nat)) {records : List TraceRecord} (hrecs : records.length < 2 ^ 32) :
    CompletesWith s
      (s.commit { res0 := s.p.toNat * s.q.toNat, res1 := phi s, res2 := e, res3 := d, out := out, records := records })
      false (s.p.toNat * s.q.toNat) (phi s) e d records := by
  have hn := modulus_lt hpq
  have hphi := (phi_le_modulus s).trans_lt hn
  obtain ⟨-, helt, -, -⟩ := he
  obtain ⟨-, hdlt, -, -⟩ := hd
  exact commit_completesWith s _ hn hphi (helt.trans hphi) (hdlt.trans hphi) hrecs

/-! ### The checks of R150 -/

@[simp] theorem checkPq_error (s : State) : (checkPq s).2 = .malformedInput := rfl
@[simp] theorem checkMlen_error (s : State) : (checkMlen s).2 = .malformedInput := rfl
@[simp] theorem checkMessage_error (s : State) : (checkMessage s).2 = .malformedInput := rfl

@[simp] theorem checkPq_fails {s : State} : (checkPq s).1 = true ↔ pqTooWide s := by
  rw [checkPq, Bool.or_eq_true, decide_eq_true_eq, decide_eq_true_eq]
  rfl

@[simp] theorem checkMlen_fails {s : State} : (checkMlen s).1 = true ↔ 256 < s.mlen.toNat := decide_eq_true_iff

/-- A property of some word of the message, by the word's index (R34). -/
theorem message_any_iff {s : State} (hlen : s.mlen.toNat ≤ 256) (f : Nat → Bool) :
    s.message.any f = true ↔ ∃ i < s.mlen.toNat, f (s.input i) = true := by
  rw [State.message, msgCap, min_eq_left hlen]
  simp

theorem checkMessage_fails {s : State} (hlen : s.mlen.toNat ≤ 256) :
    (checkMessage s).1 = true ↔ ∃ i < s.mlen.toNat, s.cfg.cpMax < s.input i := by
  rw [checkMessage, message_any_iff hlen]
  simp only [decide_eq_true_eq]

/-! ### RSA_KEYGEN (R155) -/

theorem command_rsaKeygen (s : State) :
    command .rsaKeygen s = checked ([checkPq s] ++ []) fun _ => withKeys s fun k =>
      .ok { res0 := k.n, res1 := k.phi, res2 := k.e, res3 := k.d, records := k.records s.p.toNat s.q.toNat } := rfl

theorem command_rsaKeygen_of_pqTooWide {s : State} (h : pqTooWide s) : command .rsaKeygen s = .error .malformedInput := by
  rw [command_rsaKeygen, checked_append_of_fail (e := .malformedInput) (by simp) (by simpa using h)]

theorem command_rsaKeygen_of_not_pqTooWide {s : State} (h : ¬ pqTooWide s) :
    command .rsaKeygen s = withKeys s fun k =>
      .ok { res0 := k.n, res1 := k.phi, res2 := k.e, res3 := k.d, records := k.records s.p.toNat s.q.toNat } := by
  rw [command_rsaKeygen, checked_append_of_pass (e := .malformedInput) (by simp) (by simpa using h)]
  rfl

/-- Settles O33: behind the check of P and Q, key generation has an answer exactly when there is a key, and what it answers
fits the result registers. -/
theorem rsaKeygenDerivesTheKeys : Obligations.RsaKeygenDerivesTheKeys := by
  refine ⟨Laws.Encoding.rsaKeygen.2.2, fun s hwide => ?_, fun s hpq hnone => ?_, fun s hpq hkey => ?_⟩
  · exact exec_errored_of_error (command_rsaKeygen_of_pqTooWide hwide)
  · exact exec_errored_of_error ((command_rsaKeygen_of_not_pqTooWide hpq).trans (withKeys_of_noKey hnone _))
  · obtain ⟨e, d, hgen, he, hd⟩ := keyGen_of_not_noKey hkey
    exact ⟨_, e, d, exec_of_ok ((command_rsaKeygen_of_not_pqTooWide hpq).trans (withKeys_of_ok hgen _)), he, hd,
      commit_keys_completesWith hpq he hd none (by decide : 6 < 2 ^ 32)⟩

/-! ### A message raised to a power, element by element (R161, R162, R166, R167) -/

/-- IN[i]^x mod n, for the modulus n = p * q. -/
def elementPower (s : State) (x i : Nat) : Nat := s.input i ^ x % (s.p.toNat * s.q.toNat)

/-- The records of a message command: the key records, then one for each element. -/
def messageRecords (s : State) (e d tag x : Nat) : List TraceRecord :=
  keyRecords s (s.p.toNat * s.q.toNat) (phi s) e d ++ (List.range s.mlen.toNat).map fun i =>
    record tag i (s.input i) x (s.p.toNat * s.q.toNat) (elementPower s x i)

/-- What a message command with exponent x commits: the keys, OUT and the records. -/
def messageCommit (s : State) (e d tag x : Nat) : Commit :=
  { res0 := s.p.toNat * s.q.toNat, res1 := phi s, res2 := e, res3 := d,
    out := some ((List.range s.mlen.toNat).map (elementPower s x)),
    records := messageRecords s e d tag x }

theorem message_map_powmod {s : State} (hlen : s.mlen.toNat ≤ 256) (x : Nat) :
    (s.message.map fun m => powmod m x (s.p.toNat * s.q.toNat)) = (List.range s.mlen.toNat).map (elementPower s x) := by
  rw [State.message, msgCap, min_eq_left hlen, List.map_map]
  exact List.map_congr_left fun i _ => powmod_eq _ _ _

theorem indexedMessage_eq {s : State} (hlen : s.mlen.toNat ≤ 256) :
    s.indexedMessage = (List.range s.mlen.toNat).map fun i => (i, s.input i) := by
  refine List.ext_getElem ?_ fun i hi _ => ?_
  · rw [State.indexedMessage_length, State.message_length, msgCap, min_eq_left hlen, List.length_map, List.length_range]
  · rw [State.indexedMessage_getElem s i hi, List.getElem_map, List.getElem_range]

theorem indexedMessage_map_emit {s : State} (hlen : s.mlen.toNat ≤ 256) (t : Tag) (x : Nat) :
    (s.indexedMessage.map fun y =>
      emit t y.1 y.2 x (s.p.toNat * s.q.toNat) (powmod y.2 x (s.p.toNat * s.q.toNat))) =
    (List.range s.mlen.toNat).map fun i =>
      emit t i (s.input i) x (s.p.toNat * s.q.toNat) (elementPower s x i) := by
  rw [indexedMessage_eq hlen, List.map_map]
  exact List.map_congr_left fun i _ => by rw [Function.comp_apply, powmod_eq, elementPower]

theorem messageRecords_length (s : State) (e d tag x : Nat) :
    (messageRecords s e d tag x).length = 6 + s.mlen.toNat := by
  rw [messageRecords, List.length_append, List.length_map, List.length_range]
  rfl

/-- A message command's commit completes with the keys and its records (R160, R165). -/
theorem messageCommit_completesWith {s : State} {e d : Nat} (hpq : ¬ pqTooWide s) (hlen : s.mlen.toNat ≤ 256)
    (he : IsExponent s e) (hd : IsInverse e (phi s) d) (tag x : Nat) :
    CompletesWith s (s.commit (messageCommit s e d tag x)) false (s.p.toNat * s.q.toNat) (phi s) e d
      (messageRecords s e d tag x) :=
  commit_keys_completesWith hpq he hd _ (by rw [messageRecords_length]; omega)

theorem elementPower_lt {s : State} {e : Nat} (hpq : ¬ pqTooWide s) (he : IsExponent s e) (x i : Nat) :
    elementPower s x i < 2 ^ 32 := by
  obtain ⟨-, helt, -, -⟩ := he
  have hpos : 0 < s.p.toNat * s.q.toNat := (Nat.zero_lt_of_lt helt).trans_le (phi_le_modulus s)
  exact (Nat.mod_lt _ hpos).trans (modulus_lt hpq)

/-- Below MLEN, OUT holds the elements' powers (R162, R167). -/
theorem output_messageCommit_of_lt {s : State} {e : Nat} (hpq : ¬ pqTooWide s) (hlen : s.mlen.toNat ≤ 256)
    (he : IsExponent s e) (d tag x : Nat) {i : Nat} (hi : i < s.mlen.toNat) :
    (s.commit (messageCommit s e d tag x)).output i = elementPower s x i := by
  rw [output_commit s _ rfl (hi.trans_le hlen), List.map_map, List.getD_eq_getElem _ _ (by simpa using hi),
    List.getElem_map, List.getElem_range]
  exact word_toNat_of_lt (elementPower_lt hpq he x i)

/-- From MLEN on, OUT is 0 (R162, R167). -/
theorem output_messageCommit_of_ge (s : State) (e d tag x : Nat) {i : Nat} (hi : i < 256) (hge : s.mlen.toNat ≤ i) :
    (s.commit (messageCommit s e d tag x)).output i = 0 := by
  rw [output_commit s _ rfl hi, List.getD_eq_default _ _ (by simpa using hge)]
  rfl

/-! ### RSA_ENC (R160) -/

/-- A check of R150 that RSA_ENC makes fails. -/
def rsaEncMalformed (s : State) : Prop :=
  pqTooWide s ∨ 256 < s.mlen.toNat ∨ (s.mlen.toNat ≤ 256 ∧ ∃ i < s.mlen.toNat, s.cfg.cpMax < s.input i)

theorem rsaEncChecks_any_iff {s : State} :
    [checkPq s, checkMlen s, checkMessage s].any Prod.fst = true ↔ rsaEncMalformed s := by
  by_cases hlen : s.mlen.toNat ≤ 256
  · simp [rsaEncMalformed, checkMessage_fails hlen, hlen]
  · simp [rsaEncMalformed, Nat.lt_of_not_le hlen]

theorem rsaEncChecks_error (s : State) : ∀ c ∈ [checkPq s, checkMlen s, checkMessage s], c.2 = .malformedInput := by simp

/-- RSA_ENC makes the three checks of R150, then derives the keys, then encrypts (R160). -/
theorem command_rsaEnc (s : State) :
    command .rsaEnc s = checked ([checkPq s, checkMlen s, checkMessage s] ++ []) fun _ => withKeys s fun k =>
      .ok { res0 := k.n, res1 := k.phi, res2 := k.e, res3 := k.d,
            out := some (s.message.map fun m => powmod m k.e k.n),
            records := k.records s.p.toNat s.q.toNat ++
              s.indexedMessage.map fun y => emit .rsaEncEl y.1 y.2 k.e k.n (powmod y.2 k.e k.n) } := rfl

theorem command_rsaEnc_of_malformed {s : State} (h : rsaEncMalformed s) : command .rsaEnc s = .error .malformedInput := by
  rw [command_rsaEnc, checked_append_of_fail (rsaEncChecks_error s) (rsaEncChecks_any_iff.2 h)]

theorem command_rsaEnc_of_noKey {s : State} (h : ¬ rsaEncMalformed s) (hnone : noKey s) :
    command .rsaEnc s = .error .degenerateKey := by
  rw [command_rsaEnc, checked_append_of_pass (rsaEncChecks_error s) (mt rsaEncChecks_any_iff.1 h)]
  exact withKeys_of_noKey hnone _

theorem command_rsaEnc_of_keyGen {s : State} {e d : Nat} (h : ¬ rsaEncMalformed s)
    (hgen : keyGen s.p.toNat s.q.toNat = .ok (keyPair s e d)) :
    command .rsaEnc s = .ok (messageCommit s e d 0x16 e) := by
  have hlen : s.mlen.toNat ≤ 256 := not_lt.1 fun hlong => h (.inr (.inl hlong))
  rw [command_rsaEnc, checked_append_of_pass (rsaEncChecks_error s) (mt rsaEncChecks_any_iff.1 h), checked_of_pass rfl,
    withKeys_of_ok hgen]
  simp only [keyPair, message_map_powmod hlen, indexedMessage_map_emit hlen]
  rfl

/-- Settles O35: behind the checks of R150 the keys are those of key generation, and each element is raised to e modulo n,
which fits a word of OUT. -/
theorem rsaEncEncryptsTheMessage : Obligations.RsaEncEncryptsTheMessage := by
  refine ⟨Laws.Encoding.rsaEnc.2.2, fun s hbad => ?_, fun s hpq hlen hmsg hnone => ?_, fun s hpq hlen hmsg hkey => ?_⟩
  · exact exec_errored_of_error (command_rsaEnc_of_malformed hbad)
  all_goals
    have hok : ¬ rsaEncMalformed s :=
      not_or.2 ⟨hpq, not_or.2 ⟨not_lt.2 hlen, fun ⟨_, i, hi, hbig⟩ => absurd (hmsg i hi) (not_le.2 hbig)⟩⟩
  · exact exec_errored_of_error (command_rsaEnc_of_noKey hok hnone)
  · obtain ⟨e, d, hgen, he, hd⟩ := keyGen_of_not_noKey hkey
    exact ⟨_, e, d, exec_of_ok (command_rsaEnc_of_keyGen hok hgen), he, hd,
      messageCommit_completesWith hpq hlen he hd 0x16 e,
      fun i hi => output_messageCommit_of_lt hpq hlen he d 0x16 e hi,
      fun i hi hge => output_messageCommit_of_ge s e d 0x16 e hi hge⟩

/-! ### RSA_DEC (R165) -/

/-- A check of R150 that RSA_DEC makes fails: the code points are not among them. -/
def rsaDecMalformed (s : State) : Prop := pqTooWide s ∨ 256 < s.mlen.toNat

theorem rsaDecChecks_any_iff {s : State} : [checkPq s, checkMlen s].any Prod.fst = true ↔ rsaDecMalformed s := by
  simp [rsaDecMalformed]

theorem rsaDecChecks_error (s : State) : ∀ c ∈ [checkPq s, checkMlen s], c.2 = .malformedInput := by simp

/-- RSA_DEC makes the first two checks of R150, then derives the keys, then decrypts, and checks what it has decrypted
(R165, R166). -/
theorem command_rsaDec (s : State) :
    command .rsaDec s = checked ([checkPq s, checkMlen s] ++ []) fun _ => withKeys s fun k =>
      checked [(s.message.any (fun c => s.cfg.cpMax < powmod c k.d k.n), .invalidCodepoint)] fun _ =>
        .ok { res0 := k.n, res1 := k.phi, res2 := k.e, res3 := k.d,
              out := some (s.message.map fun c => powmod c k.d k.n),
              records := k.records s.p.toNat s.q.toNat ++
                s.indexedMessage.map fun y => emit .rsaDecEl y.1 y.2 k.d k.n (powmod y.2 k.d k.n) } := rfl

theorem command_rsaDec_of_malformed {s : State} (h : rsaDecMalformed s) : command .rsaDec s = .error .malformedInput := by
  rw [command_rsaDec, checked_append_of_fail (rsaDecChecks_error s) (rsaDecChecks_any_iff.2 h)]

theorem command_rsaDec_of_noKey {s : State} (h : ¬ rsaDecMalformed s) (hnone : noKey s) :
    command .rsaDec s = .error .degenerateKey := by
  rw [command_rsaDec, checked_append_of_pass (rsaDecChecks_error s) (mt rsaDecChecks_any_iff.1 h)]
  exact withKeys_of_noKey hnone _

/-- With keys, RSA_DEC ends in InvalidCodepoint or commits, as the decrypted elements decide (R166). -/
theorem command_rsaDec_of_keyGen {s : State} {e d : Nat} (h : ¬ rsaDecMalformed s)
    (hgen : keyGen s.p.toNat s.q.toNat = .ok (keyPair s e d)) :
    command .rsaDec s =
      checked [(s.message.any (fun c => s.cfg.cpMax < powmod c d (s.p.toNat * s.q.toNat)), .invalidCodepoint)] fun _ =>
        .ok (messageCommit s e d 0x17 d) := by
  have hlen : s.mlen.toNat ≤ 256 := not_lt.1 fun hlong => h (.inr hlong)
  rw [command_rsaDec, checked_append_of_pass (rsaDecChecks_error s) (mt rsaDecChecks_any_iff.1 h), checked_of_pass rfl,
    withKeys_of_ok hgen]
  simp only [keyPair, message_map_powmod hlen, indexedMessage_map_emit hlen]
  rfl

theorem message_any_invalid_iff {s : State} (hlen : s.mlen.toNat ≤ 256) (x : Nat) :
    s.message.any (fun c => s.cfg.cpMax < powmod c x (s.p.toNat * s.q.toNat)) = true ↔
      ∃ i < s.mlen.toNat, s.cfg.cpMax < elementPower s x i := by
  rw [message_any_iff hlen]
  simp only [decide_eq_true_eq, powmod_eq, elementPower]

/-- Settles O36: behind the checks and with keys, the decrypted elements are IN[i]^d modulo n, and they alone decide between
InvalidCodepoint and the commit. -/
theorem rsaDecDecryptsTheMessage : Obligations.RsaDecDecryptsTheMessage := by
  refine ⟨Laws.Encoding.rsaDec.2.2, fun s hbad => ?_, fun s hpq hlen hnone => ?_, fun s hpq hlen hkey => ?_⟩
  · exact exec_errored_of_error (command_rsaDec_of_malformed hbad)
  all_goals have hok : ¬ rsaDecMalformed s := not_or.2 ⟨hpq, not_lt.2 hlen⟩
  · exact exec_errored_of_error (command_rsaDec_of_noKey hok hnone)
  · obtain ⟨e, d, hgen, he, hd⟩ := keyGen_of_not_noKey hkey
    have hcmd := command_rsaDec_of_keyGen hok hgen
    refine ⟨e, d, he, hd, fun hinvalid => ?_, fun hvalid => ?_⟩
    · rw [(message_any_invalid_iff hlen d).2 hinvalid] at hcmd
      exact exec_errored_of_error hcmd
    · have hin : ¬ ∃ i < s.mlen.toNat, s.cfg.cpMax < elementPower s d i :=
        fun ⟨i, hi, hbig⟩ => absurd (hvalid i hi) (not_le.2 hbig)
      rw [Bool.eq_false_iff.2 (mt (message_any_invalid_iff hlen d).1 hin)] at hcmd
      exact ⟨_, exec_of_ok hcmd, messageCommit_completesWith hpq hlen he hd 0x17 d,
        fun i hi => output_messageCommit_of_lt hpq hlen he d 0x17 d hi,
        fun i hi hge => output_messageCommit_of_ge s e d 0x17 d hi hge⟩

end Sys2Proof.Machine

/-! PROOFS. The S-DES key schedule: what its nine values are position by position, the checks of R180 in the numbers they are
written in, and what SDES_KEYSCHED ends in (spec/43_sdes_keysched.md R180 to R186). -/

namespace Sys2Proof.Machine

open Sys2Proof.Claims

/-! ### The schedule, in the words of the statements -/

/-- A whole table, applied by the model's fold, gives the string R130 describes. -/
theorem isPerm_perm_table (s : State) (t : Table) (v l : Nat) :
    IsPerm v l (s.entry t) t.size (perm v l (s.table t)) :=
  isPerm_perm_firstEntries s t v l t.size

/-- A slice that reaches the top bit is all that stands from its low end up: L, the left half of a string (R181). -/
theorem slice_to_top {v hi lo : Nat} (hle : lo ≤ hi) (hv : v < 2 ^ (hi + 1)) : slice v hi lo = v / 2 ^ lo := by
  refine Nat.mod_eq_of_lt ((Nat.div_lt_iff_lt_mul (Nat.two_pow_pos lo)).2 ?_)
  rwa [← Nat.pow_add, show hi - lo + 1 + lo = hi + 1 by omega]

theorem slice_zero (v hi : Nat) : slice v hi 0 = v % 2 ^ (hi + 1) := by
  rw [slice, pow_zero, Nat.div_one, Nat.sub_zero]

/-- The model's schedule is the one R181 to R183 describe, whatever KEY and the tables hold. -/
theorem isSchedule_keySchedule (s : State) : IsSchedule s s.keySchedule := by
  have hp10 : IsPerm s.key.toNat 10 (s.entry .p10) 10 s.keySchedule.p10 := isPerm_perm_table s .p10 _ _
  have hl : s.keySchedule.l < 2 ^ 5 := slice_lt _ 9 5
  have hr : s.keySchedule.r < 2 ^ 5 := slice_lt _ 4 0
  have hl1 : IsRot s.keySchedule.l 5 1 s.keySchedule.l1 := isRot_rotl (by decide) hl 1
  have hr1 : IsRot s.keySchedule.r 5 1 s.keySchedule.r1 := isRot_rotl (by decide) hr 1
  exact ⟨hp10, slice_to_top (by decide) hp10.1, slice_zero _ 4, hl1, hr1, isPerm_perm_table s .p8 _ _,
    isRot_rotl (by decide) hl1.1 2, isRot_rotl (by decide) hr1.1 2, isPerm_perm_table s .p8 _ _⟩

/-- The two subkeys have 8 bits (R182, R183). -/
theorem subkeys_lt_of_isSchedule {s : State} {v : KeySchedule} (h : IsSchedule s v) : v.k1 < 2 ^ 8 ∧ v.k2 < 2 ^ 8 := by
  obtain ⟨-, -, -, -, -, hk1, -, -, hk2⟩ := h
  exact ⟨hk1.1, hk2.1⟩

/-! ### The checks of R180 -/

@[simp] theorem checkKey_error (s : State) : (checkKey s).2 = .malformedInput := rfl
@[simp] theorem checkTable_error (s : State) (t : Table) (lin : Nat) :
    (checkTable s t lin).2 = .tableIndexOutOfRange := rfl

@[simp] theorem checkKey_fails {s : State} : (checkKey s).1 = true ↔ 2 ^ 10 ≤ s.key.toNat := decide_eq_true_iff

@[simp] theorem checkTable_fails {s : State} {t : Table} {lin : Nat} :
    (checkTable s t lin).1 = true ↔ ¬ tableIn s t t.size lin := by
  rw [checkTable, Bool.not_eq_true', Bool.eq_false_iff]
  exact not_congr entriesIn_table

/-- The tables the schedule reads, P10 and P8, are in range. -/
def scheduleTablesIn (s : State) : Prop := tableIn s .p10 10 10 ∧ tableIn s .p8 8 10

theorem scheduleTableChecks_any_iff {s : State} :
    [checkTable s .p10 10, checkTable s .p8 10].any Prod.fst = true ↔ ¬ scheduleTablesIn s := by
  simp [scheduleTablesIn, Table.size, imp_iff_not_or]

theorem scheduleTableChecks_error (s : State) :
    ∀ c ∈ [checkTable s .p10 10, checkTable s .p8 10], c.2 = .tableIndexOutOfRange := by simp

/-! ### SDES_KEYSCHED (R185) -/

/-- What SDES_KEYSCHED commits: the two subkeys and the records of the schedule. -/
def scheduleCommit (v : KeySchedule) : Commit := { res0 := v.k1, res1 := v.k2, records := scheduleRecords v }

/-- SDES_KEYSCHED checks KEY first, and the tables behind it (R180). -/
theorem command_sdesKeysched (s : State) :
    command .sdesKeysched s =
      checked ([checkKey s] ++ ([checkTable s .p10 10, checkTable s .p8 10] ++ [])) fun _ =>
      .ok (scheduleCommit s.keySchedule) := rfl

theorem command_sdesKeysched_of_key_wide {s : State} (h : 2 ^ 10 ≤ s.key.toNat) :
    command .sdesKeysched s = .error .malformedInput := by
  rw [command_sdesKeysched, checked_append_of_fail (e := .malformedInput) (by simp) (by simpa using h)]

/-- With a KEY of 10 bits the tables decide (R180). -/
theorem command_sdesKeysched_of_key_fits {s : State} (h : s.key.toNat < 2 ^ 10) :
    command .sdesKeysched s =
      checked ([checkTable s .p10 10, checkTable s .p8 10] ++ []) fun _ => .ok (scheduleCommit s.keySchedule) := by
  rw [command_sdesKeysched, checked_append_of_pass (e := .malformedInput) (by simp) (by simpa using h)]

theorem command_sdesKeysched_of_tables_out {s : State} (h : s.key.toNat < 2 ^ 10) (ht : ¬ scheduleTablesIn s) :
    command .sdesKeysched s = .error .tableIndexOutOfRange := by
  rw [command_sdesKeysched_of_key_fits h,
    checked_append_of_fail (scheduleTableChecks_error s) (scheduleTableChecks_any_iff.2 ht)]

theorem command_sdesKeysched_of_tables_in {s : State} (h : s.key.toNat < 2 ^ 10) (ht : scheduleTablesIn s) :
    command .sdesKeysched s = .ok (scheduleCommit s.keySchedule) := by
  rw [command_sdesKeysched_of_key_fits h,
    checked_append_of_pass (scheduleTableChecks_error s) (not_not.2 ht ∘ scheduleTableChecks_any_iff.1)]
  rfl

/-- The subkeys fit the result registers, so the commit completes with exactly them and the six records (R236). -/
theorem scheduleCommit_completesWith {s : State} {v : KeySchedule} (h : IsSchedule s v) :
    CompletesWith s (s.commit (scheduleCommit v)) false v.k1 v.k2 0 0 (scheduleRecords v) := by
  obtain ⟨hk1, hk2⟩ := subkeys_lt_of_isSchedule h
  have hzero : 0 < 2 ^ 32 := Nat.two_pow_pos 32
  exact commit_completesWith s _ (lt_word_of_lt_pow hk1 (by decide)) (lt_word_of_lt_pow hk2 (by decide)) hzero hzero
    (by decide : 6 < 2 ^ 32)

/-- Settles O38: KEY is checked before the tables, and behind the checks the model's schedule is the one R181 to R183
describe, whose 8-bit subkeys fit RES0 and RES1. -/
theorem sdesKeyschedDerivesTheSubkeys : Obligations.SdesKeyschedDerivesTheSubkeys := by
  refine ⟨Laws.Encoding.sdesKeysched.2.2, fun s hwide => ?_, fun s hkey hout => ?_, fun s hkey hp10 hp8 => ?_⟩
  · exact exec_errored_of_error (command_sdesKeysched_of_key_wide hwide)
  · exact exec_errored_of_error (command_sdesKeysched_of_tables_out hkey hout)
  · have hsched := isSchedule_keySchedule s
    exact ⟨_, s.keySchedule, exec_of_ok (command_sdesKeysched_of_tables_in hkey ⟨hp10, hp8⟩), hsched,
      scheduleCommit_completesWith hsched⟩

end Sys2Proof.Machine

/-! PROOFS. The S-DES Feistel engine: the S-boxes, the round function and the datapath in the words of the statements, the
checks of R205 and R207, and what SDES_F, SDES_ENC and SDES_DEC end in (spec/44_sdes_feistel.md R200 to R212). -/

namespace Sys2Proof.Machine

open Sys2Proof.Claims

/-! ### The S-boxes (R200) -/

theorem sboxRow_eq (g : Nat) : sboxRow g = row g := by simp [sboxRow, row, bitAt]

theorem sboxCol_eq (g : Nat) : sboxCol g = col g := by simp [sboxCol, col, bitAt]

/-- A row and a column below 4 select that entry: the model's indices modulo 4 do not wrap (R33). -/
theorem sboxEntry_of_lt (b : SBox) {r c : Nat} (hr : r < 4) (hc : c < 4) : sboxEntry b r c = (b[r][c]).toNat := by
  have hrow : Fin.ofNat 4 r = ⟨r, hr⟩ := Fin.ext (Nat.mod_eq_of_lt hr)
  have hcol : Fin.ofNat 4 c = ⟨c, hc⟩ := Fin.ext (Nat.mod_eq_of_lt hc)
  rw [sboxEntry, hrow, hcol]
  rfl

theorem sboxOut_eq (b : SBox) (g : Nat) : sboxOut b g = sboxValue b g := by
  rw [sboxOut, sboxRow_eq, sboxCol_eq]
  exact sboxEntry_of_lt b _ _

/-! ### The round function and the datapath, in the words of the statements -/

/-- The model's round is the one R201 describes, for every half and every round key of 8 bits. -/
theorem isRound_roundF (s : State) (h : Nat) {k : Nat} (hk : k < 2 ^ 8) : IsRound s h k (s.roundF h k) := by
  have hep : IsPerm h 4 (s.entry .ep) 8 (s.roundF h k).ep := isPerm_perm_table s .ep h 4
  have hx : (s.roundF h k).x < 2 ^ 8 := xorBits_lt hep.1 hk
  have hs : (s.roundF h k).s =
      sboxValue s.cfg.sbox0 (s.roundF h k).gl * 2 ^ 2 + sboxValue s.cfg.sbox1 (s.roundF h k).gr := by
    rw [← sboxOut_eq, ← sboxOut_eq]
    rfl
  exact ⟨rfl, rfl, hep, rfl, slice_to_top (by decide) hx, slice_zero _ 3, hs, isPerm_perm_table s .p4 _ _⟩

theorem round_records_eq (s : State) (f : Round) (r : Nat) : f.records s.cfg r = roundRecords s f r := by
  simp only [Round.records, sboxRow_eq, sboxCol_eq, sboxOut_eq]
  rfl

/-- The model's datapath is the one R206 describes, for every pair of round keys of 8 bits. -/
theorem isFeistel_feistel (s : State) {ka kb : Nat} (hka : ka < 2 ^ 8) (hkb : kb < 2 ^ 8) :
    IsFeistel s ka kb (s.feistel s.block.toNat ka kb) := by
  have hip : IsPerm s.block.toNat 8 (s.entry .ip) 8 (s.feistel s.block.toNat ka kb).ip := isPerm_perm_table s .ip _ _
  exact ⟨rfl, hip, slice_to_top (by decide) hip.1, slice_zero _ 3, isRound_roundF s _ hka, rfl, isRound_roundF s _ hkb,
    rfl, rfl, isPerm_perm_table s .ipinv _ _⟩

theorem feistel_records_eq (s : State) (f : Feistel) : f.records s.cfg = feistelRecords s f := by
  simp only [Feistel.records, round_records_eq]
  rfl

/-! ### A command that checks its operands, then its tables -/

/-- A command that ends in MalformedInput on an operand too long, then in TableIndexOutOfRange on a table out of range, and
otherwise commits (R205, R207). -/
structure EndsByChecks (i : Instr) (s : State) (tooLong inRange : Prop) (k : Commit) : Prop where
  malformed : tooLong → exec i s = .next (errored s 1)
  tablesOut : ¬ tooLong → ¬ inRange → exec i s = .next (errored s 2)
  commits : ¬ tooLong → inRange → exec i s = .next (s.commit k)

theorem endsByChecks_of_command {i : Instr} {s : State} {cs ds : List (Bool × ErrorCode)} {tooLong inRange : Prop}
    {k : Commit} (hcmd : command i s = checked (cs ++ (ds ++ [])) fun _ => .ok k)
    (hcs : ∀ c ∈ cs, c.2 = .malformedInput) (hds : ∀ d ∈ ds, d.2 = .tableIndexOutOfRange)
    (hmal : cs.any Prod.fst = true ↔ tooLong) (htab : ds.any Prod.fst = true ↔ ¬ inRange) :
    EndsByChecks i s tooLong inRange k where
  malformed hbad := exec_errored_of_error (hcmd.trans (checked_append_of_fail hcs (hmal.2 hbad) _ _))
  tablesOut hok hout := by
    rw [checked_append_of_pass hcs (mt hmal.1 hok), checked_append_of_fail hds (htab.2 hout)] at hcmd
    exact exec_errored_of_error hcmd
  commits hok hin := by
    rw [checked_append_of_pass hcs (mt hmal.1 hok), checked_append_of_pass hds (not_not.2 hin ∘ htab.1)] at hcmd
    exact exec_of_ok hcmd

/-! ### SDES_F (R207) -/

/-- What SDES_F commits: the round function's result and its five records. -/
def roundCommit (s : State) (f : Round) : Commit := { res0 := f.p, records := roundRecords s f 0 }

/-- SDES_F checks A and B first, and the tables EP and P4 behind them (R207). -/
theorem command_sdesF (s : State) :
    command .sdesF s =
      checked ([(decide (2 ^ 4 ≤ s.a.toNat), .malformedInput), (decide (2 ^ 8 ≤ s.b.toNat), .malformedInput)] ++
        ([checkTable s .ep 4, checkTable s .p4 4] ++ [])) fun _ =>
      .ok (roundCommit s (s.roundF s.a.toNat s.b.toNat)) := by
  simp only [roundCommit, ← round_records_eq]
  rfl

theorem sdesF_endsByChecks (s : State) :
    EndsByChecks .sdesF s (2 ^ 4 ≤ s.a.toNat ∨ 2 ^ 8 ≤ s.b.toNat) (tableIn s .ep 8 4 ∧ tableIn s .p4 4 4)
      (roundCommit s (s.roundF s.a.toNat s.b.toNat)) :=
  endsByChecks_of_command (command_sdesF s) (by simp) (by simp) (by simp) (by simp [Table.size, imp_iff_not_or])

/-- The round function's result fits RES0, so the commit completes with exactly it and the five records (R236). -/
theorem roundCommit_completesWith {s : State} {h k : Nat} {f : Round} (hf : IsRound s h k f) :
    CompletesWith s (s.commit (roundCommit s f)) false f.p 0 0 0 (roundRecords s f 0) := by
  obtain ⟨-, -, -, -, -, -, -, hp⟩ := hf
  have hzero : 0 < 2 ^ 32 := Nat.two_pow_pos 32
  exact commit_completesWith s _ (lt_word_of_lt_pow hp.1 (by decide)) hzero hzero hzero (by decide : 5 < 2 ^ 32)

/-- Settles O39: A and B are checked before EP and P4, and behind the checks the model's round is the one R201 describes,
whose 4-bit result fits RES0. -/
theorem sdesFAppliesTheRoundFunction : Obligations.SdesFAppliesTheRoundFunction := by
  refine ⟨Laws.Encoding.sdesF.2.2, fun s hbad => (sdesF_endsByChecks s).malformed hbad,
    fun s ha hb hout => ?_, fun s ha hb hep hp4 => ?_⟩
  all_goals have hok : ¬ (2 ^ 4 ≤ s.a.toNat ∨ 2 ^ 8 ≤ s.b.toNat) := not_or.2 ⟨not_le.2 ha, not_le.2 hb⟩
  · exact (sdesF_endsByChecks s).tablesOut hok hout
  · have hround := isRound_roundF s s.a.toNat hb
    exact ⟨_, _, (sdesF_endsByChecks s).commits hok ⟨hep, hp4⟩, hround, roundCommit_completesWith hround⟩

/-! ### What SDES_ENC and SDES_DEC share (R205, R206) -/

/-- BLOCK has a bit above its 8 (R205's check 2). -/
def checkBlock (s : State) : Bool × ErrorCode := (2 ^ blockLen ≤ s.block.toNat, .malformedInput)

@[simp] theorem checkBlock_error (s : State) : (checkBlock s).2 = .malformedInput := rfl
@[simp] theorem checkBlock_fails {s : State} : (checkBlock s).1 = true ↔ 2 ^ 8 ≤ s.block.toNat := decide_eq_true_iff

/-- R205's checks 1 and 2, of KEY and BLOCK. -/
def sdesOperandChecks (s : State) : List (Bool × ErrorCode) := [checkKey s, checkBlock s]

/-- R205's checks 3 to 8, of the six tables. -/
def sdesTableChecks (s : State) : List (Bool × ErrorCode) :=
  [ checkTable s .p10 10, checkTable s .p8 10, checkTable s .ip 8, checkTable s .ipinv 8, checkTable s .ep 4,
    checkTable s .p4 4 ]

theorem sdesChecks_eq (s : State) : sdesChecks s = sdesOperandChecks s ++ (sdesTableChecks s ++ []) := rfl

theorem sdesOperandChecks_error (s : State) : ∀ c ∈ sdesOperandChecks s, c.2 = .malformedInput := by
  simp [sdesOperandChecks]

theorem sdesTableChecks_error (s : State) : ∀ c ∈ sdesTableChecks s, c.2 = .tableIndexOutOfRange := by
  simp [sdesTableChecks]

theorem sdesOperandChecks_any_iff {s : State} : (sdesOperandChecks s).any Prod.fst = true ↔ sdesMalformed s := by
  simp [sdesOperandChecks, sdesMalformed]

theorem sdesTableChecks_any_iff {s : State} : (sdesTableChecks s).any Prod.fst = true ↔ ¬ sdesTablesIn s := by
  simp [sdesTableChecks, sdesTablesIn, Table.size, imp_iff_not_or]

/-- What the datapath commits with the round keys in the order (ka, kb), and dir in the record of that order: the subkeys
are reported in the order of the schedule (R210, R211). -/
def feistelCommit (s : State) (v : KeySchedule) (ka kb dir : Nat) (f : Feistel) : Commit :=
  { res0 := f.out, res1 := v.k1, res2 := v.k2,
    records := scheduleRecords v ++ [record 0x28 0 ka kb dir] ++ feistelRecords s f }

theorem sdes_endsByChecks {i : Instr} {s : State} {k : Commit}
    (hcmd : command i s = checked (sdesChecks s) fun _ => .ok k) :
    EndsByChecks i s (sdesMalformed s) (sdesTablesIn s) k :=
  endsByChecks_of_command (hcmd.trans (congrArg (checked · _) (sdesChecks_eq s))) (sdesOperandChecks_error s)
    (sdesTableChecks_error s) sdesOperandChecks_any_iff sdesTableChecks_any_iff

/-- The block and the subkeys fit the result registers, so the commit completes with exactly them and the 23 records
(R236). -/
theorem feistelCommit_completesWith {s : State} {v : KeySchedule} {ka kb : Nat} {f : Feistel} (hv : IsSchedule s v)
    (hf : IsFeistel s ka kb f) (dir : Nat) :
    CompletesWith s (s.commit (feistelCommit s v ka kb dir f)) false f.out v.k1 v.k2 0
      (scheduleRecords v ++ [record 0x28 0 ka kb dir] ++ feistelRecords s f) := by
  obtain ⟨hk1, hk2⟩ := subkeys_lt_of_isSchedule hv
  obtain ⟨-, -, -, -, -, -, -, -, -, hout⟩ := hf
  exact commit_completesWith s _ (lt_word_of_lt_pow hout.1 (by decide)) (lt_word_of_lt_pow hk1 (by decide))
    (lt_word_of_lt_pow hk2 (by decide)) (Nat.two_pow_pos 32) (by decide : 23 < 2 ^ 32)

/-! ### SDES_ENC (R210) -/

theorem command_sdesEnc (s : State) :
    command .sdesEnc s = checked (sdesChecks s) fun _ =>
      .ok (feistelCommit s s.keySchedule s.keySchedule.k1 s.keySchedule.k2 0
        (s.feistel s.block.toNat s.keySchedule.k1 s.keySchedule.k2)) := by
  simp only [feistelCommit, ← feistel_records_eq]
  rfl

/-- Settles O40: KEY and BLOCK are checked before the six tables, and behind the checks the model's schedule and its datapath
with (K1, K2) are those R181 to R183 and R206 describe. -/
theorem sdesEncEncryptsTheBlock : Obligations.SdesEncEncryptsTheBlock := by
  have hends (s : State) := sdes_endsByChecks (command_sdesEnc s)
  refine ⟨Laws.Encoding.sdesEnc.2.2, fun s => (hends s).malformed, fun s => (hends s).tablesOut, fun s hok hin => ?_⟩
  have hsched := isSchedule_keySchedule s
  obtain ⟨hk1, hk2⟩ := subkeys_lt_of_isSchedule hsched
  have hdata := isFeistel_feistel s hk1 hk2
  exact ⟨_, _, _, (hends s).commits hok hin, hsched, hdata, feistelCommit_completesWith hsched hdata 0⟩

/-! ### SDES_DEC (R211) -/

theorem command_sdesDec (s : State) :
    command .sdesDec s = checked (sdesChecks s) fun _ =>
      .ok (feistelCommit s s.keySchedule s.keySchedule.k2 s.keySchedule.k1 1
        (s.feistel s.block.toNat s.keySchedule.k2 s.keySchedule.k1)) := by
  simp only [feistelCommit, ← feistel_records_eq]
  rfl

/-- Settles O41: the checks and the datapath are those of SDES_ENC, with the round keys in the order (K2, K1), direction 1 in
their record, and the subkeys reported in the order of the schedule. -/
theorem sdesDecDecryptsTheBlock : Obligations.SdesDecDecryptsTheBlock := by
  have hends (s : State) := sdes_endsByChecks (command_sdesDec s)
  refine ⟨Laws.Encoding.sdesDec.2.2, fun s => (hends s).malformed, fun s => (hends s).tablesOut, fun s hok hin => ?_⟩
  have hsched := isSchedule_keySchedule s
  obtain ⟨hk1, hk2⟩ := subkeys_lt_of_isSchedule hsched
  have hdata := isFeistel_feistel s hk2 hk1
  exact ⟨_, _, _, (hends s).commits hok hin, hsched, hdata, feistelCommit_completesWith hsched hdata 1⟩

end Sys2Proof.Machine

/-! PROOFS. What an error completion leaves, with the codes each command can end in (spec/60_exceptions.md R231, R237), and
the accept with what stands until the completion (R235). -/

namespace Sys2Proof.Machine

open Sys2Proof.Claims

/-! ### The errors a computation can end in -/

/-- Every error this computation can end in has one of the listed codes. -/
def RaisesOnly (codes : List (BitVec 4)) (r : Except ErrorCode Commit) : Prop :=
  ∀ e, r = .error e → e.code ∈ codes

theorem raisesOnly_ok (codes : List (BitVec 4)) (k : Commit) : RaisesOnly codes (.ok k) := nofun

/-- A checked computation raises what its checks raise (R232), and what its body raises.  Where the checks are listed and the
codes are a command's row, `hcs` is the comparison of the two lists, made by default. -/
theorem raisesOnly_of_eq_checked {codes : List (BitVec 4)} {r : Except ErrorCode Commit} {cs : List (Bool × ErrorCode)}
    {body : Unit → Except ErrorCode Commit} (hr : r = checked cs body) (hbody : RaisesOnly codes (body ()))
    (hcs : ∀ c ∈ cs, c.2.code ∈ codes := by simp [sdesChecks, possibleCodes, ErrorCode.code]) :
    RaisesOnly codes r := by
  intro e h
  obtain ⟨e', hfirst, herr⟩ | ⟨-, hpass⟩ := checked_cases cs body
  · obtain rfl : e' = e := by simpa [hr, herr] using h
    exact hcs _ (firstFailure_mem hfirst)
  · exact hbody e (by rw [← hpass, ← hr, h])

/-- A computation that derives keys raises DegenerateKey (R151 to R153), and what its body raises. -/
theorem raisesOnly_withKeys {codes : List (BitVec 4)} {s : State} {body : KeyPair → Except ErrorCode Commit}
    (hkey : ErrorCode.degenerateKey.code ∈ codes) (hbody : ∀ k, RaisesOnly codes (body k)) :
    RaisesOnly codes (withKeys s body) := by
  intro e h
  obtain hnone | ⟨k, -, hok⟩ := withKeys_cases s body
  · obtain rfl : .degenerateKey = e := by simpa [hnone] using h
    exact hkey
  · exact hbody k e (hok ▸ h)

/-- MODEXP's one check is on the modulus (R122). -/
theorem command_modexp (s : State) :
    command .modexp s = checked [(s.c.toNat == 0, .malformedInput)] fun _ =>
      .ok { res0 := powmod s.a.toNat s.b.toNat s.c.toNat,
            records := [emit .modexp 0 s.a.toNat s.b.toNat s.c.toNat (powmod s.a.toNat s.b.toNat s.c.toNat)] } := rfl

/-- The table of R231: what each command computes ends only in the codes listed for it. -/
theorem command_raisesOnly_possibleCodes (i : Instr) (s : State) : RaisesOnly (possibleCodes i) (command i s) := by
  cases i with
  | gcd | modinv => exact raisesOnly_ok _ _
  | modexp => exact raisesOnly_of_eq_checked (command_modexp s) (raisesOnly_ok _ _)
  | permute => exact raisesOnly_of_eq_checked (command_permute s) (raisesOnly_ok _ _)
  | rotl => exact raisesOnly_of_eq_checked (command_rotl s) (raisesOnly_ok _ _)
  | xor => exact raisesOnly_of_eq_checked (command_xor s) (raisesOnly_ok _ _)
  | rsaKeygen =>
    exact raisesOnly_of_eq_checked (command_rsaKeygen s) (raisesOnly_withKeys (by decide) fun _ => raisesOnly_ok _ _)
  | rsaEnc =>
    exact raisesOnly_of_eq_checked (command_rsaEnc s) (raisesOnly_withKeys (by decide) fun _ => raisesOnly_ok _ _)
  | rsaDec =>
    refine raisesOnly_of_eq_checked (command_rsaDec s) (raisesOnly_withKeys (by decide) fun _ => ?_)
    exact raisesOnly_of_eq_checked rfl (raisesOnly_ok _ _)
  | sdesKeysched => exact raisesOnly_of_eq_checked (command_sdesKeysched s) (raisesOnly_ok _ _)
  | sdesEnc => exact raisesOnly_of_eq_checked (command_sdesEnc s) (raisesOnly_ok _ _)
  | sdesDec => exact raisesOnly_of_eq_checked (command_sdesDec s) (raisesOnly_ok _ _)
  | sdesF => exact raisesOnly_of_eq_checked (command_sdesF s) (raisesOnly_ok _ _)

/-- No command's row lists the code of IllegalCommand (R231). -/
theorem possibleCodes_bounds (i : Instr) : ∀ c ∈ possibleCodes i, 1 ≤ c.toNat ∧ c.toNat ≤ 5 := by
  cases i <;> decide

/-- A completion with ERR = 1 is the error completion of the error the command computed (R236, R237). -/
theorem exec_err {i : Instr} {s t : State} (h : exec i s = .next t) (herr : t.status.err = true) :
    ∃ e, command i s = .error e ∧ t = s.fail e := by
  obtain hfail | ⟨k, -, rfl⟩ := exec_cases h
  · exact hfail
  · simp at herr

/-- Settles O21: a completion with ERR = 1 is R237's error completion, and its code is in the command's row of R231's
table. -/
theorem errorsChangeOnlyStatus : Obligations.ErrorsChangeOnlyStatus := by
  intro i s t h herr
  obtain ⟨e, he, rfl⟩ := exec_err h herr
  exact ⟨fail_eq_errored s e, possibleCodes_bounds i _ (command_raisesOnly_possibleCodes i s e he)⟩

/-! ### What a step can do while a command runs -/

theorem exec_clears_busy {i : Instr} {s t : State} (h : exec i s = .next t) : t.status.busy = false := by
  obtain ⟨e, -, rfl⟩ | ⟨k, -, rfl⟩ := exec_cases h
  · rfl
  · rfl

/-- After the engine's turn no command is running (R266). -/
theorem engineTurn_clears_busy {s t : State} (h : engineTurn s = .next t) : t.status.busy = false := by
  obtain ⟨hidle, rfl⟩ | ⟨-, -, rfl⟩ | ⟨-, i, -, hexec⟩ := engineTurn_cases h
  · exact hidle
  · rfl
  · exact exec_clears_busy hexec

/-- Only a host's turn leaves a command running: the engine completes it, and the reset input abandons it (R261, R266). -/
theorem host_turn_of_step_busy {s t : State} (h : step s = .next t) (hbusy : t.status.busy = true) :
    ∃ x rest, s.outside.turns = .host x :: rest ∧ t = hostTurn (s.withTurns rest) x := by
  obtain ⟨-, heng⟩ | ⟨rest, -, heng⟩ | hhost | ⟨rest, -, rfl⟩ := step_cases h
  · simp [engineTurn_clears_busy heng] at hbusy
  · simp [engineTurn_clears_busy heng] at hbusy
  · exact hhost
  · simp [Status.reset] at hbusy

/-- A host write while a command runs sets BUSY_WR and does nothing else (R270). -/
theorem hostTurn_write_of_busy {s : State} (h : s.status.busy = true) (addr : Addr) (v : Word) :
    hostTurn s (.write addr v) = { s with status := s.status.dropped } := by
  obtain ⟨-, hw⟩ | ⟨hidle, -⟩ := busWrite_cases s addr v
  · exact hw
  · simp [h] at hidle

/-- While a command runs, a host's turn changes only STATUS and what stands outside CORE (R64, R270). -/
theorem hostTurn_of_busy {s : State} (h : s.status.busy = true) (x : Transaction) :
    ∃ st out, hostTurn s x = { s with status := st, outside := out } := by
  cases x with
  | read addr => exact ⟨_, _, rfl⟩
  | write addr v => exact ⟨_, _, hostTurn_write_of_busy h addr v⟩

/-- Settles O12: the idle write is an accept; a step that leaves a command running is a host's turn, which reaches no result;
and a busy write of CMD is dropped. -/
theorem writingCmdAcceptsACommand : Obligations.WritingCmdAcceptsACommand := by
  refine ⟨fun s w rest hidle hturns => ?_, fun s t hbusy h hbusy' => ?_, fun s w rest hbusy hturns => ?_⟩
  · refine ⟨(s.withTurns rest).accept w, ?_, rfl, rfl⟩
    rw [step_of_host_turn hturns, hostTurn_write_cmd_of_idle (by rwa [State.withTurns_status])]
  · obtain ⟨x, rest, -, rfl⟩ := host_turn_of_step_busy h hbusy'
    obtain ⟨st, out, hturn⟩ := hostTurn_of_busy (s := s.withTurns rest) hbusy x
    simp [hturn]
  · refine ⟨{ s.withTurns rest with status := s.status.dropped }, ?_, hbusy, rfl⟩
    rw [step_of_host_turn hturns, hostTurn_write_of_busy (by rwa [State.withTurns_status]), State.withTurns_status]

end Sys2Proof.Machine

/-! PROOFS. How long BUSY_WR stays set, and what the reset input leaves (spec/70_reset_and_hazards.md R260, R270). -/

namespace Sys2Proof.Machine

open Sys2Proof.Claims

/-! ### BUSY_WR on each agent's turn -/

/-- A completion, with or without an error, keeps BUSY_WR (R236, R237). -/
theorem exec_busyWr {i : Instr} {s t : State} (h : exec i s = .next t) : t.status.busyWr = s.status.busyWr := by
  obtain ⟨e, -, rfl⟩ | ⟨k, -, rfl⟩ := exec_cases h
  · rfl
  · rfl

theorem engineTurn_busyWr {s t : State} (h : engineTurn s = .next t) : t.status.busyWr = s.status.busyWr := by
  obtain ⟨-, rfl⟩ | ⟨-, -, rfl⟩ | ⟨-, i, -, hexec⟩ := engineTurn_cases h
  · rfl
  · rfl
  · exact exec_busyWr hexec

/-- CMD stands at address 0 alone, so no other write is an accept (R66). -/
theorem eq_zero_of_target_cmd {addr : Addr} (h : target addr = .cmd) : addr = 0 := by
  have hreg : target addr = registerTarget addr.toNat := by
    rcases target_cases addr with ⟨-, h'⟩ | ⟨-, h'⟩ | ⟨-, h'⟩ | ⟨-, h'⟩ | ⟨-, h'⟩ | ⟨-, h'⟩
    · exact h'
    all_goals rw [h'] at h; cases h
  rw [hreg] at h
  unfold registerTarget at h
  split at h
  case h_1 hzero => exact BitVec.eq_of_toNat_eq hzero
  all_goals cases h

/-- An idle write that is no accept leaves STATUS as it is (R64, R65). -/
theorem idleWrite_status {addr : Addr} (h : addr ≠ 0) (s : State) (v : Word) :
    (idleWrite s addr v).status = s.status := by
  unfold idleWrite
  cases htarget : target addr
  case cmd => exact absurd (eq_zero_of_target_cmd htarget) h
  case operand r => exact State.setOperand_status s r v
  all_goals rfl

/-- The host clears BUSY_WR by an accept only (R270). -/
theorem hostTurn_keeps_busyWr {s : State} {x : Transaction} (h : s.status.busyWr = true)
    (hx : ∀ w, s.status.busy = false → x ≠ .write 0x0000 w) : (hostTurn s x).status.busyWr = true := by
  cases x with
  | read addr => exact h
  | write addr v =>
    obtain ⟨-, hw⟩ | ⟨hidle, hw⟩ := busWrite_cases s addr v
    · rw [hostTurn, hw, Status.dropped]
    · have haddr : addr ≠ 0 := fun h0 => hx v hidle (h0 ▸ rfl)
      rw [hostTurn, hw, idleWrite_status haddr, h]

/-- Settles O13: a busy write is dropped whatever its address, and of the three agents the engine keeps BUSY_WR and the host
clears it by an accept only. -/
theorem writesWhileBusyAreDropped : Obligations.WritesWhileBusyAreDropped := by
  refine ⟨fun s addr v rest hbusy hturns => ?_, fun s t hset h hreset hcmd => ?_⟩
  · rw [step_of_host_turn hturns, hostTurn_write_of_busy (by rwa [State.withTurns_status])]
    rfl
  · obtain ⟨-, heng⟩ | ⟨rest, -, heng⟩ | ⟨x, rest, hturns, rfl⟩ | ⟨rest, hturns, -⟩ := step_cases h
    · rw [engineTurn_busyWr heng, hset]
    · rw [engineTurn_busyWr heng, State.withTurns_status, hset]
    · exact hostTurn_keeps_busyWr hset fun w hidle hx => hcmd w rest hidle (hx ▸ hturns)
    · exact absurd hturns (hreset rest)

/-! ### The reset input -/

theorem step_of_reset_turn {s : State} {rest : List Turn} (h : s.outside.turns = .reset :: rest) :
    step s = .next (resetTurn (s.withTurns rest)) := by
  simp only [step, h]

@[simp] theorem Status.toWord_reset : Status.reset.toWord = 0 := rfl

@[simp] theorem resetTurn_operand (s : State) (r : Operand) : (resetTurn s).operand r = 0 := by
  cases r <;> rfl

/-- The memory lists nothing after reset, so every table entry and buffer word reads as 0. -/
theorem resetTurn_read (s : State) (a : Nat) : (resetTurn s).mem.read a = 0 := Memory.read_nil a

@[simp] theorem resetTurn_entry (s : State) (T : Table) (k : Nat) : (resetTurn s).entry T k = 0 :=
  congrArg BitVec.toNat (resetTurn_read s _)

@[simp] theorem resetTurn_input (s : State) (k : Nat) : (resetTurn s).input k = 0 :=
  congrArg BitVec.toNat (resetTurn_read s _)

@[simp] theorem resetTurn_output (s : State) (k : Nat) : (resetTurn s).output k = 0 :=
  congrArg BitVec.toNat (resetTurn_read s _)

@[simp] theorem resetTurn_traceRecord (s : State) (k : Nat) : (resetTurn s).traceRecord k = TraceRecord.zero := by
  simp only [State.traceRecord, resetTurn_read]
  rfl

/-- Settles O10: the step is the reset turn, whatever the state, and each row of R260's table is one of its field laws. -/
theorem resetClearsEveryRegister : Obligations.ResetClearsEveryRegister := by
  intro s rest hturns
  exact ⟨resetTurn (s.withTurns rest), step_of_reset_turn hturns, resetTurn_cmd _, Status.toWord_reset,
    resetTurn_operand _, resetTurn_res0 _, resetTurn_res1 _, resetTurn_res2 _, resetTurn_res3 _, resetTurn_traceLen _,
    resetTurn_entry _, resetTurn_input _, resetTurn_output _, resetTurn_traceRecord _, resetTurn_cfg _,
    resetTurn_outside _⟩

end Sys2Proof.Machine

/-! PROOFS. Decoding and encoding agree, and the illegal words are exactly those that decode to no command
(spec/30_encoding.md R80, R81, R84). -/

namespace Sys2Proof.Machine

open Sys2Proof.Claims

/-- The decoder reads every command's word back (R81, R86). -/
theorem decode_encode (i : Instr) : decode (encode i) = .ok i := by cases i <;> rfl

/-- The opcode map has one opcode for each command (R81). -/
theorem eq_opcode_of_decodeOpcode {op : BitVec 8} {i : Instr} (h : decodeOpcode op = some i) : op = opcode i := by
  unfold decodeOpcode at h
  split at h <;> cases h <;> exact BitVec.eq_of_toNat_eq ‹_›

/-- A word decodes to a command only when RSVD is 0 and OP is the command's (R84). -/
theorem fields_of_decode_ok {w : Word} {i : Instr} (h : decode w = .ok i) : rsvdField w = 0 ∧ opField w = opcode i := by
  unfold decode at h
  split at h
  · next hrsvd =>
    split at h
    · next i' hop =>
      cases h
      exact ⟨hrsvd, eq_opcode_of_decodeOpcode hop⟩
    · cases h
  · cases h

theorem illegalWord_of_decode_error {w : Word} {e : DecodeError} (h : decode w = .error e) : illegalWord w := by
  unfold decode at h
  split at h
  · next hrsvd =>
    split at h
    · cases h
    · next hop =>
      rw [decodeOpcode_eq_none_iff, opField_toNat] at hop
      exact .inr hop
  · next hrsvd => exact .inl (mt (rsvdField_eq_zero_iff w).2 hrsvd)

/-- A word is its RSVD field above its OP field (R80). -/
theorem rsvdField_append_opField (w : Word) : rsvdField w ++ opField w = w := BitVec.extractLsb'_append_extractLsb'

/-- Settles O2: the two fields determine the word, and a word decodes to no command exactly when one of R84's checks
fails. -/
theorem legalWordsAreExactlyTheEncodings : Obligations.LegalWordsAreExactlyTheEncodings := by
  refine ⟨fun w i => ⟨fun h => ?_, fun h => h ▸ decode_encode i⟩, fun w => ⟨?_, decode_error_of_illegalWord⟩⟩
  · obtain ⟨hrsvd, hop⟩ := fields_of_decode_ok h
    rw [← rsvdField_append_opField w, hrsvd, hop, encode]
  · rintro ⟨e, he⟩
    exact illegalWord_of_decode_error he

/-- Settles O1: each word written out is its command's encoding, and the last three fail the decoder's checks. -/
theorem writtenOutWordsDecode : Obligations.WrittenOutWordsDecode :=
  ⟨decode_encode .gcd, decode_encode .modinv, decode_encode .modexp, decode_encode .permute, decode_encode .rotl,
    decode_encode .xor, decode_encode .rsaKeygen, decode_encode .rsaEnc, decode_encode .rsaDec, decode_encode .sdesKeysched,
    decode_encode .sdesEnc, decode_encode .sdesDec, decode_encode .sdesF, rfl, rfl, rfl⟩

end Sys2Proof.Machine

/-! PROOFS. One step by whose turn it is, runs of several turns, and what the host's turns leave to a running command
(spec/00_scope.md R11; spec/30_encoding.md R101; spec/70_reset_and_hazards.md R266 to R271). -/

namespace Sys2Proof.Machine

open Sys2Proof.Claims

/-! ### One step -/

theorem step_of_no_turn {s : State} (h : s.outside.turns = []) : step s = engineTurn s := by
  simp only [step, h]

theorem engineTurn_of_decode_ok {s : State} {i : Instr} (hb : s.status.busy = true) (hd : decode s.cmd = .ok i) :
    engineTurn s = exec i s := by
  rw [engineTurn, if_pos hb, hd]

theorem engineTurn_of_idle {s : State} (h : s.status.busy = false) : engineTurn s = .next s := by
  rw [engineTurn, h]
  rfl

/-- Settles O3: on an empty list as on a listed turn of the engine, the step is the engine's turn, which decodes CMD. -/
theorem engineTurnRunsTheDecodedCommand : Obligations.EngineTurnRunsTheDecodedCommand :=
  fun _ _ hb hd => ⟨fun hturns => (step_of_no_turn hturns).trans (engineTurn_of_decode_ok hb hd),
    fun rest hturns => (step_of_engine_turn hturns).trans (engineTurn_of_decode_ok (s := State.withTurns _ rest) hb hd)⟩

/-- Settles O5: the engine's turn does nothing when no command runs. -/
theorem idleEngineTurnChangesNothing : Obligations.IdleEngineTurnChangesNothing :=
  fun _ rest hidle hturns => (step_of_engine_turn hturns).trans (engineTurn_of_idle (s := State.withTurns _ rest) hidle)

theorem step_next (s : State) : ∃ t, step s = .next t := by
  cases hturns : s.outside.turns with
  | nil => exact step_of_no_turn hturns ▸ engineTurn_next s
  | cons turn rest =>
    cases turn with
    | host x => exact ⟨_, step_of_host_turn hturns⟩
    | engine => exact step_of_engine_turn hturns ▸ engineTurn_next _
    | reset => exact ⟨_, step_of_reset_turn hturns⟩

/-- Settles O6: a command completes with an error or a commit, and each agent's turn answers a next state. -/
theorem everyStepAnswersANextState : Obligations.EveryStepAnswersANextState := ⟨exec_next, step_next⟩

/-- A read returns what CORE holds, whatever stands outside it. -/
theorem busRead_withTurns (s : State) (turns : List Turn) (addr : Addr) :
    busRead (s.withTurns turns) addr = busRead s addr := rfl

/-- Settles O14: a host's read is a turn that only adds what it was told. -/
theorem readsChangeNothing : Obligations.ReadsChangeNothing :=
  fun _ _ _ hturns => step_of_host_turn hturns

/-! ### Runs -/

/-- A run goes on from the state its first step answers. -/
theorem run_succ_of_step (M : Host.Core) {s t : M.State} (h : M.step s = .next t) (k : Nat) :
    M.run (k + 1) s = M.run k t := by
  rw [Host.Core.run, h]

theorem run_succ {s t : State} (h : step s = .next t) (k : Nat) : core.run (k + 1) s = core.run k t :=
  run_succ_of_step core h k

theorem run_one {s t : State} (h : step s = .next t) : core.run 1 s = .next t := run_succ h 0

theorem exec_outside {i : Instr} {s t : State} (h : exec i s = .next t) : t.outside = s.outside := by
  obtain ⟨e, -, rfl⟩ | ⟨k, -, rfl⟩ := exec_cases h
  · rfl
  · rfl

theorem engineTurn_outside {s t : State} (h : engineTurn s = .next t) : t.outside = s.outside := by
  obtain ⟨-, rfl⟩ | ⟨-, -, rfl⟩ | ⟨-, i, -, hexec⟩ := engineTurn_cases h
  · rfl
  · rfl
  · exact exec_outside hexec

theorem hostTurn_turns (s : State) (x : Transaction) : (hostTurn s x).outside.turns = s.outside.turns := by
  cases x with
  | read addr => rfl
  | write addr v =>
    obtain ⟨-, hw⟩ | ⟨-, hw⟩ := busWrite_cases s addr v <;> rw [hostTurn, hw]
    obtain hw | ⟨r, hw⟩ | ⟨-, hw⟩ | hw := idleWrite_cases s addr v <;> rw [hw]
    · rfl
    · rw [State.setOperand_outside]

/-- Each step takes the first turn of the list (R11). -/
theorem step_turns {s t : State} (h : step s = .next t) : t.outside.turns = s.outside.turns.tail := by
  obtain ⟨hturns, heng⟩ | ⟨rest, hturns, heng⟩ | ⟨x, rest, hturns, rfl⟩ | ⟨rest, hturns, rfl⟩ := step_cases h
  · rw [engineTurn_outside heng, hturns, List.tail_nil]
  · rw [engineTurn_outside heng, hturns]; rfl
  · rw [hostTurn_turns, hturns]; rfl
  · rw [hturns]; rfl

/-- Settles O7, by induction on the turns to come: each step takes one, and the step behind the last is the engine's. -/
theorem acceptedCommandsComplete : Obligations.AcceptedCommandsComplete := by
  intro s
  induction hn : s.outside.turns generalizing s with
  | nil =>
    obtain ⟨t, h⟩ := step_next s
    have heng : engineTurn s = .next t := (step_of_no_turn hn).symm.trans h
    exact ⟨t, run_one h, engineTurn_clears_busy heng, by rw [step_turns h, hn, List.tail_nil]⟩
  | cons turn rest ih =>
    obtain ⟨t, h⟩ := step_next s
    obtain ⟨u, hrun, hu⟩ := ih t (by rw [step_turns h, hn, List.tail_cons])
    exact ⟨u, (run_succ h _).trans hrun, hu⟩

/-! ### Host turns in a row -/

/-- The state after some transactions of the host, in order. -/
def hostTurns (s : State) (ts : List Transaction) : State := ts.foldl hostTurn s

/-- A transaction reads and writes CORE, and leaves the turns to come as they are. -/
theorem hostTurn_withTurns (s : State) (turns : List Turn) (x : Transaction) :
    hostTurn (s.withTurns turns) x = (hostTurn s x).withTurns turns := by
  cases x with
  | read addr => rfl
  | write addr v =>
    rw [hostTurn, hostTurn, busWrite, busWrite, State.withTurns_status]
    split
    · rfl
    · unfold idleWrite
      cases target addr
      case operand r => cases r <;> rfl
      all_goals rfl

theorem hostTurns_withTurns (s : State) (turns : List Turn) (ts : List Transaction) :
    hostTurns (s.withTurns turns) ts = (hostTurns s ts).withTurns turns := by
  induction ts generalizing s with
  | nil => rfl
  | cons x ts ih => exact (congrArg (hostTurns · ts) (hostTurn_withTurns s turns x)).trans (ih _)

/-- A run through listed host turns reaches the state those transactions make, with the other turns still to come. -/
theorem run_hostTurns {s : State} {ts : List Transaction} {rest : List Turn}
    (h : s.outside.turns = ts.map Turn.host ++ rest) (k : Nat) :
    core.run (ts.length + k) s = core.run k ((hostTurns s ts).withTurns rest) := by
  induction ts generalizing s with
  | nil =>
    have hsame : s.withTurns rest = s := by rw [State.withTurns, ← (show s.outside.turns = rest from h)]
    rw [List.length_nil, Nat.zero_add, hostTurns, List.foldl_nil, hsame]
  | cons x ts ih =>
    have hstep : step s = .next ((hostTurn s x).withTurns (ts.map Turn.host ++ rest)) :=
      (step_of_host_turn h).trans (congrArg _ (hostTurn_withTurns s _ x))
    have hlen : (x :: ts).length + k = ts.length + k + 1 := Nat.add_right_comm _ _ _
    have hskip (u : State) : hostTurns (u.withTurns (ts.map Turn.host ++ rest)) ts =
        (hostTurns u ts).withTurns (ts.map Turn.host ++ rest) := hostTurns_withTurns u _ ts
    rw [hlen, run_succ hstep, ih rfl, hskip]
    rfl

/-! ### Host turns while a command runs -/

/-- The state with another BUSY_WR and other things outside CORE: all that a host can change while a command runs. -/
def State.withHost (s : State) (busyWr : Bool) (outside : Outside) : State :=
  { s with status := { s.status with busyWr := busyWr }, outside := outside }

/-- Whatever the host reads and writes while a command runs, only BUSY_WR and what it has been told change: BUSY_WR is 1
afterwards when it was, or when there was a write (R64, R270). -/
theorem hostTurns_of_busy {s : State} (h : s.status.busy = true) (ts : List Transaction) :
    ∃ o, hostTurns s ts = s.withHost (s.status.busyWr || ts.any isWrite) o := by
  induction ts generalizing s with
  | nil => exact ⟨s.outside, by rw [List.any_nil, Bool.or_false]; rfl⟩
  | cons x ts ih =>
    cases x with
    | read addr => exact ih (s := hostRead s addr) h
    | write addr v =>
      have hw := hostTurn_write_of_busy h addr v
      obtain ⟨o, ho⟩ := ih (s := hostTurn s (.write addr v)) (hw ▸ h)
      refine ⟨o, ho.trans ?_⟩
      rw [hw]
      simp [State.withHost, Status.dropped, isWrite]

/-- No command reads BUSY_WR or what stands outside CORE. -/
theorem command_withHost (i : Instr) (s : State) (b : Bool) (o : Outside) : command i (s.withHost b o) = command i s := by
  cases i <;> rfl

theorem exec_withHost {i : Instr} {s t : State} (h : exec i s = .next t) (b : Bool) (o : Outside) :
    exec i (s.withHost b o) = .next (t.withHost b o) := by
  obtain ⟨e, he, rfl⟩ | ⟨k, hk, rfl⟩ := exec_cases h
  · exact exec_of_error ((command_withHost i s b o).trans he)
  · exact exec_of_ok ((command_withHost i s b o).trans hk)

/-- The engine's turn has the same effect whatever BUSY_WR and what stands outside CORE. -/
theorem engineTurn_withHost {s t : State} (h : engineTurn s = .next t) (b : Bool) (o : Outside) :
    engineTurn (s.withHost b o) = .next (t.withHost b o) := by
  obtain ⟨hidle, rfl⟩ | ⟨hbusy, ⟨e, he⟩, rfl⟩ | ⟨hbusy, i, hi, hexec⟩ := engineTurn_cases h
  · exact engineTurn_of_idle hidle
  · exact engineTurn_of_decode_error hbusy he
  · exact (engineTurn_of_decode_ok (s := s.withHost b o) hbusy hi).trans (exec_withHost hexec b o)

/-- Settles O20: the host's turns change BUSY_WR and what it has been told, which the engine's turn passes on unread. -/
theorem hostTurnsDoNotReachARunningCommand : Obligations.HostTurnsDoNotReachARunningCommand := by
  intro s ts rest hbusy hturns
  obtain ⟨o, ho⟩ := hostTurns_of_busy hbusy ts
  obtain ⟨u, hu⟩ := engineTurn_next (s.withTurns rest)
  have heng := engineTurn_withHost hu (s.status.busyWr || ts.any isWrite) { o with turns := rest }
  refine ⟨u.withHost (s.status.busyWr || ts.any isWrite) { o with turns := rest }, u,
    (run_hostTurns hturns 1).trans (run_one ?_), (step_of_engine_turn rfl).trans hu, rfl⟩
  rw [ho]
  exact (step_of_engine_turn rfl).trans heng

end Sys2Proof.Machine

/-! PROOFS. What every command has in common: its frame, its error codes, the records it leaves, and what its result depends
on (spec/30_encoding.md R81, R97; spec/60_exceptions.md R231, R236, R237). -/

namespace Sys2Proof.Machine

open Sys2Proof.Claims

/-! ### What a successful computation commits, said once for every command -/

/-- When this computation succeeds, what it commits satisfies P. -/
def Commits (P : Commit → Prop) (r : Except ErrorCode Commit) : Prop := ∀ k, r = .ok k → P k

theorem commits_ok {P : Commit → Prop} {k : Commit} (h : P k) : Commits P (.ok k) := by
  rintro _ ⟨⟩
  exact h

/-- A checked computation commits what its body commits, with every check passed (R232). -/
theorem commits_of_eq_checked {P : Commit → Prop} {r : Except ErrorCode Commit} {cs : List (Bool × ErrorCode)}
    {body : Unit → Except ErrorCode Commit} (hr : r = checked cs body)
    (hbody : (∀ c ∈ cs, c.1 = false) → Commits P (body ())) : Commits P r := by
  intro k hk
  obtain ⟨hpass, hok⟩ := checked_ok (hr ▸ hk)
  exact hbody (firstFailure_eq_none.1 hpass) k hok

theorem commits_withKeys {P : Commit → Prop} {s : State} {body : KeyPair → Except ErrorCode Commit}
    (hbody : ∀ k, Commits P (body k)) : Commits P (withKeys s body) := by
  intro c hc
  obtain hnone | ⟨k, -, hok⟩ := withKeys_cases s body
  · rw [hnone] at hc
    cases hc
  · exact hbody k c (hok ▸ hc)

/-- The tags of the key-generation records (R154). -/
def keyTags : List Tag := [.rsaN, .rsaPhi, .rsaE, .rsaD, .rsaPub, .rsaPriv]

/-- The tags of the key schedule's records (R186). -/
def scheduleTags : List Tag := [.ksP10, .ksSplit, .ksLs1, .ksK1, .ksLs2, .ksK2]

/-- The tags of one call of the round function (R202). -/
def roundTags : List Tag := [.feEp, .feXk, .feS0, .feS1, .feP4]

/-- The tags of the datapath's records (R206). -/
def feistelTags : List Tag :=
  [.feIp, .feSplit] ++ roundTags ++ [.feRound, .feSwap] ++ roundTags ++ [.feRound, .feIpinv]

/-- The tags of the records a successful command leaves, in the order emitted (R97). -/
def commandTags (i : Instr) (s : State) : List Tag :=
  match i with
  | .gcd => [.gcd]
  | .modinv => [.modinv]
  | .modexp => [.modexp]
  | .permute => [.perm]
  | .rotl => [.rotl]
  | .xor => [.xor]
  | .rsaKeygen => keyTags
  | .rsaEnc => keyTags ++ List.replicate s.mlen.toNat .rsaEncEl
  | .rsaDec => keyTags ++ List.replicate s.mlen.toNat .rsaDecEl
  | .sdesKeysched => scheduleTags
  | .sdesEnc => scheduleTags ++ [.feKorder] ++ feistelTags
  | .sdesDec => scheduleTags ++ [.feKorder] ++ feistelTags
  | .sdesF => roundTags

theorem commandTags_length (i : Instr) (s : State) : (commandTags i s).length = recordCount i s := by
  cases i with
  | rsaEnc | rsaDec => rw [commandTags, List.length_append, List.length_replicate]; rfl
  | _ => rfl

/-- What a command commits when it succeeds: records with its tags, at most 262 of them, FOUND for MODINV alone, and an OUT
for the RSA message commands alone (R36, R97, R236). -/
structure CommitShape (i : Instr) (s : State) (k : Commit) : Prop where
  tags : k.records.map TraceRecord.tag = (commandTags i s).map Tag.code
  found : i ≠ .modinv → k.found = false
  out : k.out.isSome = true ↔ i = .rsaEnc ∨ i = .rsaDec
  short : recordCount i s ≤ maxRecords

theorem CommitShape.records_length {i : Instr} {s : State} {k : Commit} (h : CommitShape i s k) :
    k.records.length = recordCount i s := by
  have hlen := congrArg List.length h.tags
  rwa [List.length_map, List.length_map, commandTags_length] at hlen

theorem CommitShape.tagged {i : Instr} {s : State} {k : Commit} (h : CommitShape i s k) :
    ∀ r ∈ k.records, ∃ t : Tag, r.tag = t.code := by
  intro r hr
  have hmem : r.tag ∈ (commandTags i s).map Tag.code := h.tags ▸ List.mem_map_of_mem hr
  obtain ⟨t, -, ht⟩ := List.mem_map.1 hmem
  exact ⟨t, ht.symm⟩

/-- The shape of a commit whose record count no operand decides. -/
theorem commits_shape {i : Instr} {s : State} {k : Commit}
    (htags : k.records.map TraceRecord.tag = (commandTags i s).map Tag.code) (hfound : i ≠ .modinv → k.found = false)
    (hout : k.out = none) (hi : i ≠ .rsaEnc ∧ i ≠ .rsaDec) (hshort : recordCount i s ≤ maxRecords) :
    Commits (CommitShape i s) (.ok k) :=
  commits_ok ⟨htags, hfound, by simp [hout, hi], hshort⟩

/-- One element record for each word of the message, all with one tag (R161). -/
theorem elementRecords_tags {s : State} (hlen : s.mlen.toNat ≤ 256) {t : Tag} {f : Nat × Nat → TraceRecord}
    (hf : ∀ y, (f y).tag = t.code) :
    (s.indexedMessage.map f).map TraceRecord.tag = (List.replicate s.mlen.toNat t).map Tag.code := by
  have hmsg : s.indexedMessage.length = s.mlen.toNat := by
    rw [State.indexedMessage_length, State.message_length, msgCap, min_eq_left hlen]
  rw [List.map_map, show TraceRecord.tag ∘ f = fun _ => t.code from funext hf, List.map_replicate, ← hmsg]
  exact List.map_const'

/-- A message command's commit: the keys' six records, then one for each element (R160, R165). -/
theorem commits_shape_message {i : Instr} {s : State} {k : Commit} {pairs : KeyPair} (hlen : s.mlen.toNat ≤ 256)
    (hi : i = .rsaEnc ∨ i = .rsaDec) {t : Tag} (htags : commandTags i s = keyTags ++ List.replicate s.mlen.toNat t)
    (hfound : k.found = false) (hout : k.out.isSome = true) {f : Nat × Nat → TraceRecord}
    (hrecords : k.records = pairs.records s.p.toNat s.q.toNat ++ s.indexedMessage.map f)
    (hf : ∀ y, (f y).tag = t.code) : Commits (CommitShape i s) (.ok k) := by
  refine commits_ok ⟨?_, fun _ => hfound, iff_of_true hout hi, ?_⟩
  · rw [hrecords, htags, List.map_append, List.map_append, elementRecords_tags hlen hf]
    rfl
  · rw [← commandTags_length, htags, List.length_append, List.length_replicate]
    exact Nat.add_le_add_left hlen 6

/-- What each of the thirteen commands commits when it succeeds has its shape (R97, R236). -/
theorem command_commits_shape (i : Instr) (s : State) : Commits (CommitShape i s) (command i s) := by
  have hmlen : (checkMlen s).1 = false → s.mlen.toNat ≤ 256 :=
    fun h => not_lt.1 (of_decide_eq_false h)
  have hone : 1 ≤ maxRecords := by decide
  cases i with
  | gcd => exact commits_shape rfl (fun _ => rfl) rfl (by decide) hone
  | modinv => exact commits_shape rfl (fun h => absurd rfl h) rfl (by decide) hone
  | modexp =>
    exact commits_of_eq_checked (command_modexp s) fun _ => commits_shape rfl (fun _ => rfl) rfl (by decide) hone
  | permute =>
    exact commits_of_eq_checked (command_permute s) fun _ => commits_shape rfl (fun _ => rfl) rfl (by decide) hone
  | rotl => exact commits_of_eq_checked (command_rotl s) fun _ => commits_shape rfl (fun _ => rfl) rfl (by decide) hone
  | xor => exact commits_of_eq_checked (command_xor s) fun _ => commits_shape rfl (fun _ => rfl) rfl (by decide) hone
  | rsaKeygen =>
    refine commits_of_eq_checked (command_rsaKeygen s) fun _ => commits_withKeys fun k => ?_
    exact commits_shape rfl (fun _ => rfl) rfl (by decide) (by decide : 6 ≤ maxRecords)
  | rsaEnc =>
    refine commits_of_eq_checked (command_rsaEnc s) fun hpass => commits_withKeys fun k => ?_
    exact commits_shape_message (hmlen (hpass _ (by simp))) (by decide) rfl rfl rfl rfl fun _ => rfl
  | rsaDec =>
    refine commits_of_eq_checked (command_rsaDec s) fun hpass => commits_withKeys fun k =>
      commits_of_eq_checked rfl fun _ => ?_
    exact commits_shape_message (hmlen (hpass _ (by simp))) (by decide) rfl rfl rfl rfl fun _ => rfl
  | sdesKeysched =>
    refine commits_of_eq_checked (command_sdesKeysched s) fun _ => ?_
    exact commits_shape rfl (fun _ => rfl) rfl (by decide) (by decide : 6 ≤ maxRecords)
  | sdesEnc =>
    refine commits_of_eq_checked (command_sdesEnc s) fun _ => ?_
    exact commits_shape rfl (fun _ => rfl) rfl (by decide) (by decide : 23 ≤ maxRecords)
  | sdesDec =>
    refine commits_of_eq_checked (command_sdesDec s) fun _ => ?_
    exact commits_shape rfl (fun _ => rfl) rfl (by decide) (by decide : 23 ≤ maxRecords)
  | sdesF =>
    refine commits_of_eq_checked (command_sdesF s) fun _ => ?_
    exact commits_shape rfl (fun _ => rfl) rfl (by decide) (by decide : 5 ≤ maxRecords)

/-- A completion with ERR = 0 is a commit of the command's shape (R236, R237). -/
theorem exec_no_err {i : Instr} {s t : State} (h : exec i s = .next t) (hok : t.status.err = false) :
    ∃ k, command i s = .ok k ∧ CommitShape i s k ∧ t = s.commit k := by
  obtain ⟨e, -, rfl⟩ | ⟨k, hk, rfl⟩ := exec_cases h
  · simp at hok
  · exact ⟨k, hk, command_commits_shape i s k hk, rfl⟩

/-! ### Frame, error codes and records -/

@[simp] theorem State.operand_commit (s : State) (k : Commit) (r : Operand) : (s.commit k).operand r = s.operand r := by
  cases r <;> rfl

@[simp] theorem State.operand_fail (s : State) (e : ErrorCode) (r : Operand) : (s.fail e).operand r = s.operand r := by
  cases r <;> rfl

/-- A commit with no new OUT changes no word outside TRACE (R35, R236). -/
theorem read_commit_of_no_out {k : Commit} (hout : k.out = none) (s : State) {a : Nat} (ha : a < 0x1000 ∨ 0x2000 ≤ a) :
    (s.commit k).mem.read a = s.mem.read a := by
  rw [State.commit_mem, read_commitTrace_outside _ _ ha, hout]
  rfl

/-- Settles O22: an error completion changes STATUS alone, and a commit the results, TRACE, and OUT where the command has a
new one. -/
theorem commandsChangeOnlyTheirResults : Obligations.CommandsChangeOnlyTheirResults := by
  intro i s t h
  obtain ⟨e, -, rfl⟩ | ⟨k, hk, rfl⟩ := exec_cases h
  · simp
  · refine ⟨s.operand_commit k, rfl, rfl, rfl, rfl, fun a ha => ?_, fun henc hdec a _ hlt => ?_⟩
    · exact read_commit_outside s k (by omega) (by omega)
    · have hnone : k.out = none := by
        simpa [henc, hdec] using (command_commits_shape i s k hk).out
      exact read_commit_of_no_out hnone s (by omega)

/-- Settles O23: a completion with ERR = 1 reports the error the command computed, whose code is in its row of R231's
table. -/
theorem commandsRaiseOnlyTheirErrors : Obligations.CommandsRaiseOnlyTheirErrors := by
  intro i s t h herr
  obtain ⟨e, he, rfl⟩ := exec_err h herr
  exact command_raisesOnly_possibleCodes i s e he

/-- Settles O24: a commit leaves the records of the command's shape, whose number fits TRACE_LEN. -/
theorem successfulCommandsLeaveTheirRecords : Obligations.SuccessfulCommandsLeaveTheirRecords := by
  intro i s t h hok
  obtain ⟨k, -, hshape, rfl⟩ := exec_no_err h hok
  have hcount := hshape.records_length
  have hmax : recordCount i s ≤ 262 := hshape.short
  refine ⟨?_, fun n hn hge => ?_, hshape.found⟩
  · rw [State.commit_traceLen, hcount, word_toNat_of_lt (by omega)]
  · rw [traceRecord_commit s k hn, List.getD_eq_default _ _ (by omega)]

end Sys2Proof.Machine

/-! PROOFS. The invariant holds after reset, and each agent's turn keeps it (spec/10_state.md R28, R36;
spec/20_memory.md R66; spec/30_encoding.md R95, R96). -/

namespace Sys2Proof.Machine

/-! ### What each update of STATUS leaves legal (R28) -/

theorem ErrorCode.code_bounds (e : ErrorCode) : 1 ≤ e.code.toNat ∧ e.code.toNat ≤ 6 := by
  cases e <;> decide

theorem Status.legal_failed (s : Status) (e : ErrorCode) : (s.failed e).legal :=
  .inr (.inr (.inr ⟨rfl, rfl, rfl, rfl, e.code_bounds⟩))

theorem Status.legal_succeeded (s : Status) (found : Bool) : (s.succeeded found).legal :=
  .inr (.inr (.inl ⟨rfl, rfl, rfl, rfl⟩))

theorem Status.legal_accepted : Status.accepted.legal := .inr (.inl ⟨rfl, rfl, rfl, rfl, rfl⟩)

/-- BUSY_WR is set while BUSY = 1 only, and the legal combinations with BUSY = 1 leave it open (R270). -/
theorem Status.legal_dropped {s : Status} (h : s.legal) (hbusy : s.busy = true) : s.dropped.legal := by
  obtain rfl | hrun | ⟨hidle, -⟩ | ⟨hidle, -⟩ := h
  · cases hbusy
  · exact .inr (.inl hrun)
  · rw [hbusy] at hidle; cases hidle
  · rw [hbusy] at hidle; cases hidle

/-! ### The trace window -/

theorem traceRecord_congr {s t : State} {i : Nat}
    (h : ∀ k < recordWords, t.mem.read (traceBase + recordWords * i + k) = s.mem.read (traceBase + recordWords * i + k)) :
    t.traceRecord i = s.traceRecord i := by
  simp only [State.traceRecord, h 0 (by decide), h 1 (by decide), h 2 (by decide), h 3 (by decide), h 4 (by decide)]

/-- The words of the trace window lie at or above 0x1000. -/
theorem traceBase_le_trace_word (i k : Nat) : 0x1000 ≤ traceBase + recordWords * i + k := by
  simp only [traceBase]
  omega

/-- An update that leaves TRACE_LEN and the trace window as they are keeps the invariant, when STATUS stays legal and the
memory canonical and mapped. -/
theorem State.Inv.of_same_trace {s t : State} (hs : s.Inv) (hstatus : t.status.legal) (hwf : Memory.wf t.mem)
    (hmapped : ∀ x ∈ t.mem, storedAddr x.1 = true) (hlen : t.traceLen = s.traceLen)
    (hread : ∀ a, 0x1000 ≤ a → t.mem.read a = s.mem.read a) : t.Inv where
  status := hstatus
  canonical := hwf
  mapped := hmapped
  traceLen := hlen ▸ hs.traceLen
  reserved i hi k hk h5 := (hread _ (traceBase_le_trace_word i k)).trans (hs.reserved i hi k hk h5)
  beyond i hi hge :=
    (traceRecord_congr fun k _ => hread _ (traceBase_le_trace_word i k)).trans (hs.beyond i hi (hlen ▸ hge))
  tags i hi := by
    rw [traceRecord_congr fun k _ => hread _ (traceBase_le_trace_word i k)]
    exact hs.tags i (hlen ▸ hi)

/-- An update of the registers and of what stands outside CORE keeps the invariant when STATUS stays legal. -/
theorem State.Inv.of_same_mem {s t : State} (hs : s.Inv) (hstatus : t.status.legal) (hmem : t.mem = s.mem)
    (hlen : t.traceLen = s.traceLen) : t.Inv :=
  hs.of_same_trace hstatus (hmem ▸ hs.canonical) (hmem ▸ hs.mapped) hlen fun a _ => by rw [hmem]

/-! ### Each agent's turn -/

/-- With nothing in memory and no trace, only STATUS is left to the invariant. -/
theorem State.Inv.of_mem_nil {s : State} (hstatus : s.status.legal) (hmem : s.mem = []) (hlen : s.traceLen = 0) :
    s.Inv where
  status := hstatus
  canonical := by rw [hmem]; exact ⟨.nil, nofun⟩
  mapped := by simp [hmem]
  traceLen := by simp [hlen]
  reserved i _ k _ _ := by rw [hmem, Memory.read_nil]
  beyond i _ _ := by
    simp only [State.traceRecord, hmem, Memory.read_nil]
    rfl
  tags i hi := by simp [hlen] at hi

/-- Settles O8: after reset the memory lists nothing and no trace record is valid. -/
theorem resetMeetsTheInvariant : Obligations.ResetMeetsTheInvariant :=
  fun _ => State.Inv.of_mem_nil (.inl rfl) rfl rfl

theorem inv_resetTurn (s : State) : (resetTurn s).Inv := State.Inv.of_mem_nil (.inl rfl) rfl rfl

theorem State.Inv.withTurns {s : State} (hs : s.Inv) (turns : List Turn) : (s.withTurns turns).Inv :=
  hs.of_same_mem hs.status rfl rfl

/-- A write to a table, to GT or to IN reaches no word of TRACE. -/
theorem State.Inv.write_ram {s : State} (hs : s.Inv) {addr : Addr} (h : target addr = .ram) (v : Word) :
    State.Inv { s with mem := s.mem.write addr.toNat v } := by
  have haddr := target_ram h
  refine hs.of_same_trace hs.status (Memory.write_wf hs.canonical _ _) (fun x hx => ?_) rfl fun a ha => ?_
  · obtain hx | hx := Memory.mem_write hx
    · simp only [storedAddr, hx, Bool.or_eq_true, Bool.and_eq_true, decide_eq_true_eq]
      omega
    · exact hs.mapped x hx
  · rw [Memory.read_write hs.canonical, if_neg (by omega)]

theorem State.Inv.idleWrite {s : State} (hs : s.Inv) (addr : Addr) (v : Word) : (idleWrite s addr v).Inv := by
  obtain hw | ⟨r, hw⟩ | ⟨hram, hw⟩ | hw := idleWrite_cases s addr v <;> rw [hw]
  · exact hs.of_same_mem Status.legal_accepted rfl rfl
  · have hstatus : (s.setOperand r v).status.legal := by rw [State.setOperand_status]; exact hs.status
    exact hs.of_same_mem hstatus (s.setOperand_mem r v) (s.setOperand_traceLen r v)
  · exact hs.write_ram hram v
  · exact hs

theorem State.Inv.hostTurn {s : State} (hs : s.Inv) (x : Transaction) : (hostTurn s x).Inv := by
  cases x with
  | read addr => exact hs.of_same_mem hs.status rfl rfl
  | write addr v =>
    obtain ⟨hbusy, hw⟩ | ⟨-, hw⟩ := busWrite_cases s addr v <;> rw [Machine.hostTurn, hw]
    · exact hs.of_same_mem (Status.legal_dropped hs.status hbusy) rfl rfl
    · exact hs.idleWrite addr v

theorem State.Inv.fail {s : State} (hs : s.Inv) (e : ErrorCode) : (s.fail e).Inv :=
  hs.of_same_mem (Status.legal_failed _ e) rfl rfl

/-- Words 5 to 7 of a record are its reserved words (R95). -/
theorem words_getD_reserved (r : TraceRecord) {k : Nat} (h5 : 5 ≤ k) (hk : k < recordWords) : r.words.getD k 0 = 0 := by
  simp only [recordWords] at hk
  interval_cases k <;> rfl

/-- A commit of at most 262 records with listed tags keeps the invariant: TRACE holds them, and zeros beyond (R36, R236). -/
theorem State.Inv.commit {s : State} (hs : s.Inv) {k : Commit} (hshort : k.records.length ≤ maxRecords)
    (htagged : ∀ r ∈ k.records, ∃ t : Tag, r.tag = t.code) : (s.commit k).Inv := by
  have hmax : k.records.length ≤ 262 := hshort
  have hlen : (s.commit k).traceLen.toNat = k.records.length := word_toNat_of_lt (by omega)
  refine
    { status := Status.legal_succeeded _ _
      canonical := commit_wf hs.canonical k
      mapped := commit_mapped hs.mapped k
      traceLen := hlen ▸ hshort
      reserved := fun i hi j hj h5 => ?_
      beyond := fun i hi hge => ?_
      tags := fun i hi => ?_ }
  · rw [State.commit_mem, read_commitTrace _ _ hi hj, words_getD_reserved _ h5 hj]
  · rw [traceRecord_commit s k hi, List.getD_eq_default _ _ (hlen ▸ hge)]
  · rw [hlen] at hi
    rw [traceRecord_commit s k (by simp only [traceCap]; omega), List.getD_eq_getElem _ _ hi]
    exact htagged _ (List.getElem_mem hi)

theorem State.Inv.exec {s t : State} (hs : s.Inv) {i : Instr} (h : exec i s = .next t) : t.Inv := by
  obtain ⟨e, -, rfl⟩ | ⟨k, hk, rfl⟩ := exec_cases h
  · exact hs.fail e
  · have hshape := command_commits_shape i s k hk
    exact hs.commit (hshape.records_length ▸ hshape.short) hshape.tagged

theorem State.Inv.engineTurn {s t : State} (hs : s.Inv) (h : engineTurn s = .next t) : t.Inv := by
  obtain ⟨-, rfl⟩ | ⟨-, -, rfl⟩ | ⟨-, i, -, hexec⟩ := engineTurn_cases h
  · exact hs
  · exact hs.fail .illegalCommand
  · exact hs.exec hexec

/-- Settles O9: each of the three agents keeps the invariant on its turn, and taking a turn from the list changes nothing it
speaks of. -/
theorem everyStepKeepsTheInvariant : Obligations.EveryStepKeepsTheInvariant := by
  intro s t hs h
  obtain ⟨-, heng⟩ | ⟨rest, -, heng⟩ | ⟨x, rest, -, rfl⟩ | ⟨rest, -, rfl⟩ := step_cases h
  · exact hs.engineTurn heng
  · exact (hs.withTurns rest).engineTurn heng
  · exact (hs.withTurns rest).hostTurn x
  · exact inv_resetTurn _

end Sys2Proof.Machine

/-! PROOFS. What each address reads as, what a write changes of it, and STATUS bit by bit (spec/10_state.md section 2, R28;
spec/20_memory.md R62 to R66). -/

namespace Sys2Proof.Machine

open Sys2Proof.Claims

/-! ### STATUS as a word (R28) -/

@[simp] theorem flag_eq_toNat (b : Bool) : flag b = b.toNat := by cases b <;> rfl

theorem Status.fields_le (s : Status) :
    s.busy.toNat ≤ 1 ∧ s.done.toNat ≤ 1 ∧ s.err.toNat ≤ 1 ∧ s.found.toNat ≤ 1 ∧ s.busyWr.toNat ≤ 1 ∧
    s.errCode.toNat < 2 ^ 4 :=
  ⟨s.busy.toNat_le, s.done.toNat_le, s.err.toNat_le, s.found.toNat_le, s.busyWr.toNat_le, s.errCode.isLt⟩

/-- The fields of STATUS are below 2^12 together, so the word is the number they make. -/
theorem Status.toWord_toNat (s : Status) :
    s.toWord.toNat = s.busy.toNat + 2 * s.done.toNat + 2 ^ 2 * s.err.toNat + 2 ^ 3 * s.found.toNat +
      2 ^ 4 * s.busyWr.toNat + 2 ^ 8 * s.errCode.toNat := by
  obtain ⟨hbusy, hdone, herr, hfound, hbusyWr, hcode⟩ := s.fields_le
  rw [Status.toWord, word_toNat_of_lt] <;> simp only [flag_eq_toNat] <;> omega

theorem getLsbD_eq_of_toNat {w : Word} {i : Nat} {b : Bool} (h : w.toNat / 2 ^ i % 2 = b.toNat) : w.getLsbD i = b := by
  rw [← BitVec.testBit_toNat, Nat.testBit_eq_decide_div_mod_eq, h]
  cases b <;> rfl

/-- Each flag of STATUS stands at its bit, and ERRCODE in bits 11:8 (R28). -/
theorem Status.toWord_fields (s : Status) :
    s.toWord.getLsbD 0 = s.busy ∧ s.toWord.getLsbD 1 = s.done ∧ s.toWord.getLsbD 2 = s.err ∧ s.toWord.getLsbD 3 = s.found ∧
    s.toWord.getLsbD 4 = s.busyWr ∧ s.toWord.extractLsb' 8 4 = s.errCode := by
  have hnum := s.toWord_toNat
  obtain ⟨hbusy, hdone, herr, hfound, hbusyWr, hcode⟩ := s.fields_le
  refine ⟨?_, ?_, ?_, ?_, ?_, BitVec.eq_of_toNat_eq ?_⟩
  case refine_6 =>
    rw [BitVec.extractLsb'_toNat, Nat.shiftRight_eq_div_pow]
    omega
  all_goals
    refine getLsbD_eq_of_toNat ?_
    omega

/-- The reserved bits of STATUS, 7:5 and 31:12, are 0 (R28). -/
theorem Status.toWord_reserved (s : Status) {i : Nat} (hi : (5 ≤ i ∧ i ≤ 7) ∨ 12 ≤ i) : s.toWord.getLsbD i = false := by
  have hnum := s.toWord_toNat
  obtain ⟨hbusy, hdone, herr, hfound, hbusyWr, hcode⟩ := s.fields_le
  refine getLsbD_eq_of_toNat ?_
  obtain ⟨h5, h7⟩ | h12 := hi
  · interval_cases i <;> simp only [Bool.toNat_false] <;> omega
  · have hpow : 2 ^ 12 ≤ 2 ^ i := Nat.pow_le_pow_right (by decide) h12
    rw [Nat.div_eq_of_lt (by omega)]
    rfl

theorem busRead_status (s : State) : busRead s 0x0001 = s.status.toWord := rfl

/-- Settles O17: a read of address 1 is the word of STATUS, whose bits are its fields. -/
theorem statusBitsAreWhereTheyBelong : Obligations.StatusBitsAreWhereTheyBelong := by
  intro s
  rw [busRead_status]
  exact s.status.toWord_fields

/-! ### What a read returns, by what the address names -/

section
variable {addr : Addr} (s : State)

theorem busRead_of_operand {r : Operand} (h : target addr = .operand r) : busRead s addr = s.operand r := by
  rw [busRead, h]

theorem busRead_of_ram (h : target addr = .ram) : busRead s addr = s.mem.read addr.toNat := by rw [busRead, h]

theorem busRead_of_buffer (h : target addr = .buffer) : busRead s addr = s.mem.read addr.toNat := by rw [busRead, h]

theorem busRead_of_unmapped (h : target addr = .unmapped) : busRead s addr = 0 := by rw [busRead, h]

/-- The S-box ROM reads its entries, zero-extended (R33). -/
theorem busRead_of_sbox0 {r c : Nat} (h : target addr = .sbox0 r c) :
    (busRead s addr).toNat = sboxEntry s.cfg.sbox0 r c := by
  have hfits : sboxEntry s.cfg.sbox0 r c < 2 ^ 32 := (BitVec.isLt _).trans (by decide)
  rw [busRead, h]
  exact word_toNat_of_lt hfits

theorem busRead_of_sbox1 {r c : Nat} (h : target addr = .sbox1 r c) :
    (busRead s addr).toNat = sboxEntry s.cfg.sbox1 r c := by
  have hfits : sboxEntry s.cfg.sbox1 r c < 2 ^ 32 := (BitVec.isLt _).trans (by decide)
  rw [busRead, h]
  exact word_toNat_of_lt hfits

end

/-! ### The addresses of the register map -/

theorem addr_toNat {n : Nat} (h : n < 2 ^ 16) : (BitVec.ofNat 16 n).toNat = n := Nat.mod_eq_of_lt h

theorem target_sbox0_ofNat {r c : Nat} (hr : r < 4) (hc : c < 4) :
    target (BitVec.ofNat 16 (0x0060 + 4 * r + c)) = .sbox0 r c := by
  have hn : (BitVec.ofNat 16 (0x0060 + 4 * r + c)).toNat = 0x0060 + 4 * r + c := addr_toNat (by omega)
  rw [target_sbox0 (by omega), hn]
  congr 1 <;> omega

theorem target_sbox1_ofNat {r c : Nat} (hr : r < 4) (hc : c < 4) :
    target (BitVec.ofNat 16 (0x0070 + 4 * r + c)) = .sbox1 r c := by
  have hn : (BitVec.ofNat 16 (0x0070 + 4 * r + c)).toNat = 0x0070 + 4 * r + c := addr_toNat (by omega)
  rw [target_sbox1 (by omega), hn]
  congr 1 <;> omega

/-- The S-box ROM at its addresses, in every state (R33). -/
theorem busRead_sbox (s : State) {r c : Nat} (hr : r < 4) (hc : c < 4) :
    (busRead s (BitVec.ofNat 16 (0x0060 + 4 * r + c))).toNat = (s.cfg.sbox0[r][c]).toNat ∧
    (busRead s (BitVec.ofNat 16 (0x0070 + 4 * r + c))).toNat = (s.cfg.sbox1[r][c]).toNat := by
  rw [busRead_of_sbox0 s (target_sbox0_ofNat hr hc), busRead_of_sbox1 s (target_sbox1_ofNat hr hc)]
  exact ⟨sboxEntry_of_lt _ hr hc, sboxEntry_of_lt _ hr hc⟩

theorem registerTarget_not_sbox (n r c : Nat) : registerTarget n ≠ .sbox0 r c ∧ registerTarget n ≠ .sbox1 r c := by
  unfold registerTarget
  split <;> simp

/-- Outside 0x0060 to 0x007F no address names an S-box entry (R66). -/
theorem target_not_sbox {addr : Addr} (h : ¬ (0x0060 ≤ addr.toNat ∧ addr.toNat ≤ 0x007F)) (r c : Nat) :
    target addr ≠ .sbox0 r c ∧ target addr ≠ .sbox1 r c := by
  obtain ⟨-, ht⟩ | ⟨-, ht⟩ | ⟨-, ht⟩ | ⟨hin, -⟩ | ⟨hin, -⟩ | ⟨-, ht⟩ := target_cases addr
  · rw [ht]; exact registerTarget_not_sbox _ r c
  · simp [ht]
  · simp [ht]
  · omega
  · omega
  · simp [ht]

/-- After reset every register and every word of memory reads as 0 (R260). -/
theorem busRead_resetWith (cfg : Config) {addr : Addr} (h : ∀ r c, target addr ≠ .sbox0 r c ∧ target addr ≠ .sbox1 r c) :
    busRead (State.resetWith cfg) addr = 0 := by
  unfold busRead
  cases ht : target addr with
  | operand r => cases r <;> rfl
  | result i => fin_cases i <;> rfl
  | sbox0 r c => exact absurd ht (h r c).1
  | sbox1 r c => exact absurd ht (h r c).2
  | _ => rfl

/-- Settles O11: outside the ROM an address names a register or a word that reset clears, or nothing; the ROM is read from
the parameters. -/
theorem afterResetTheBusReadsZero : Obligations.AfterResetTheBusReadsZero :=
  ⟨fun cfg _ hout => busRead_resetWith cfg (target_not_sbox hout), fun s _ _ hr hc => busRead_sbox s hr hc⟩

/-! ### What a write changes of what is read -/

theorem registerTarget_operand {n : Nat} {r : Operand} (h : registerTarget n = .operand r) : n = r.address := by
  unfold registerTarget at h
  split at h <;> cases h <;> rfl

/-- An operand register stands at its address alone (R66). -/
theorem target_operand_iff {addr : Addr} {r : Operand} : target addr = .operand r ↔ addr.toNat = r.address := by
  constructor
  · intro h
    obtain ⟨-, ht⟩ | ⟨-, ht⟩ | ⟨-, ht⟩ | ⟨-, ht⟩ | ⟨-, ht⟩ | ⟨-, ht⟩ := target_cases addr
    · exact registerTarget_operand (ht.symm.trans h)
    all_goals rw [ht] at h; cases h
  · intro h
    have hlow : r.address < 0x0020 := by cases r <;> decide
    rw [target_register (h ▸ hlow), h]
    cases r <;> rfl

/-- A read-write address other than CMD names an operand register, or a word of a table, of GT or of IN. -/
theorem target_of_readWriteAddr {addr : Addr} (h : readWriteAddr addr) :
    (∃ r, target addr = .operand r) ∨ target addr = .ram := by
  obtain ⟨h2, hA⟩ | hram := h
  · have hreg (n : Nat) (h2 : 2 ≤ n) (hA : n ≤ 0xA) : ∃ r, registerTarget n = .operand r := by
      interval_cases n <;> exact ⟨_, rfl⟩
    exact .inl (target_register (addr := addr) (by omega) ▸ hreg _ h2 hA)
  · exact .inr (target_writable hram)

theorem busRead_setOperand (s : State) (r : Operand) (v : Word) (b : Addr) :
    busRead (s.setOperand r v) b = if target b = .operand r then v else busRead s b := by
  unfold busRead
  cases target b with
  | operand r' => simp [State.operand_setOperand, eq_comm]
  | _ => cases r <;> rfl

theorem busRead_write_ram {s : State} (hwf : Memory.wf s.mem) {addr : Addr} (h : target addr = .ram) (v : Word) (b : Addr) :
    busRead { s with mem := s.mem.write addr.toNat v } b = if b = addr then v else busRead s b := by
  by_cases hb : b = addr
  · rw [if_pos hb, hb, busRead_of_ram _ h]
    exact (Memory.read_write hwf _ _ _).trans (if_pos rfl)
  · have hne : addr.toNat ≠ b.toNat := fun heq => hb (BitVec.eq_of_toNat_eq heq.symm)
    have hread : (s.mem.write addr.toNat v).read b.toNat = s.mem.read b.toNat :=
      (Memory.read_write hwf _ _ _).trans (if_neg hne)
    rw [if_neg hb]
    unfold busRead
    cases target b with
    | ram | buffer => exact hread
    | _ => rfl

/-- A write that lands at a read-write address is read back there, and nowhere else (R62). -/
theorem busRead_idleWrite {s : State} (hwf : Memory.wf s.mem) {addr : Addr} (h : readWriteAddr addr) (v : Word) (b : Addr) :
    busRead (idleWrite s addr v) b = if b = addr then v else busRead s b := by
  obtain ⟨r, hr⟩ | hram := target_of_readWriteAddr h
  · have hsame : target b = .operand r ↔ b = addr := by
      rw [target_operand_iff, ← target_operand_iff.1 hr, BitVec.toNat_inj]
    rw [idleWrite, hr]
    exact (busRead_setOperand s r v b).trans (if_congr hsame rfl rfl)
  · rw [idleWrite, hram]
    exact busRead_write_ram hwf hram v b

theorem hostTurn_write_of_idle {s : State} (h : s.status.busy = false) (addr : Addr) (v : Word) :
    hostTurn s (.write addr v) = idleWrite s addr v := by
  obtain ⟨hbusy, -⟩ | ⟨-, hw⟩ := busWrite_cases s addr v
  · rw [h] at hbusy; cases hbusy
  · exact hw

/-- Settles O15: the write lands, and of all addresses only its own reads another word. -/
theorem theWordWrittenIsTheWordRead : Obligations.TheWordWrittenIsTheWordRead := by
  intro s addr v rest hwf hidle haddr hturns
  have hread (b : Addr) : busRead ((idleWrite s addr v).withTurns rest) b = if b = addr then v else busRead s b :=
    (busRead_withTurns _ rest b).trans (busRead_idleWrite hwf haddr v b)
  refine ⟨(idleWrite s addr v).withTurns rest, ?_, (hread addr).trans (if_pos rfl), fun b hb => (hread b).trans (if_neg hb)⟩
  rw [step_of_host_turn hturns, hostTurn_withTurns, hostTurn_write_of_idle hidle]

/-! ### Read-only and unmapped addresses (R64, R65) -/

theorem target_of_unmappedAddr {addr : Addr} (h : unmappedAddr addr) : target addr = .unmapped := by
  have hreg (n : Nat) (hn : (0x0B ≤ n ∧ n ≤ 0x0F) ∨ (0x14 ≤ n ∧ n ≤ 0x17) ∨ (0x19 ≤ n ∧ n ≤ 0x1F)) :
      registerTarget n = .unmapped := by
    obtain ⟨_, _⟩ | ⟨_, _⟩ | ⟨_, _⟩ := hn <;> interval_cases n <;> rfl
  unfold unmappedAddr at h
  by_cases hlow : addr.toNat < 0x0020
  · exact (target_register hlow).trans (hreg _ (by omega))
  · exact target_gap (by omega)

/-- A write that lands where nothing is writable changes nothing (R64, R65). -/
theorem idleWrite_of_not_writable {addr : Addr} (hcmd : target addr ≠ .cmd) (hop : ∀ r, target addr ≠ .operand r)
    (hram : target addr ≠ .ram) (s : State) (v : Word) : idleWrite s addr v = s := by
  unfold idleWrite
  cases ht : target addr with
  | cmd => exact absurd ht hcmd
  | operand r => exact absurd ht (hop r)
  | ram => exact absurd ht hram
  | _ => rfl

theorem idleWrite_of_readOnly_or_unmapped {addr : Addr} (h : readOnlyAddr addr ∨ unmappedAddr addr) (s : State) (v : Word) :
    idleWrite s addr v = s := by
  unfold readOnlyAddr unmappedAddr at h
  refine idleWrite_of_not_writable (fun ht => ?_) (fun r ht => ?_) (fun ht => ?_) s v
  · have hzero : addr.toNat = 0 := congrArg BitVec.toNat (eq_zero_of_target_cmd ht)
    omega
  · have hbounds : 2 ≤ r.address ∧ r.address ≤ 0x0A := by cases r <;> decide
    rw [← target_operand_iff.1 ht] at hbounds
    omega
  · have hbounds := target_ram ht
    omega

/-- The words of the trace window at their addresses (R95). -/
theorem busRead_trace (s : State) {i k : Nat} (hi : i < 512) (hk : k < 8) :
    busRead s (BitVec.ofNat 16 (0x1000 + 8 * i + k)) = s.mem.read (traceBase + recordWords * i + k) := by
  have hn : (BitVec.ofNat 16 (0x1000 + 8 * i + k)).toNat = 0x1000 + 8 * i + k := addr_toNat (by omega)
  rw [busRead_of_buffer s (target_buffer (by omega)), hn]
  rfl

theorem busRead_trace_reserved {s : State} (hs : s.Inv) {i k : Nat} (hi : i < 512) (h5 : 5 ≤ k) (hk : k < 8) :
    busRead s (BitVec.ofNat 16 (0x1000 + 8 * i + k)) = 0 :=
  (busRead_trace s hi hk).trans (hs.reserved i hi k hk h5)

/-- Settles O16: no read-only or unmapped address names something a write can change, and the reserved words of the trace
are the invariant's. -/
theorem readOnlyAndUnmappedAddresses : Obligations.ReadOnlyAndUnmappedAddresses := by
  refine ⟨fun s addr v rest haddr hturns => ?_, fun s addr h => busRead_of_unmapped s (target_of_unmappedAddr h),
    fun s i hi => s.status.toWord_reserved hi, fun s i k hs hi h5 hk => busRead_trace_reserved hs hi h5 hk⟩
  rw [step_of_host_turn hturns, hostTurn_withTurns]
  cases hbusy : s.status.busy with
  | true =>
    rw [hostTurn_write_of_busy hbusy, Bool.or_true]
    rfl
  | false =>
    rw [hostTurn_write_of_idle hbusy, idleWrite_of_readOnly_or_unmapped haddr, Bool.or_false]
    rfl

/-! ### The names of the register map -/

theorem busRead_operand (s : State) (r : Operand) : busRead s (HostName.operand r).addr = s.operand r :=
  busRead_of_operand s (target_operand_iff.2 (addr_toNat (by cases r <;> decide)))

/-- A table entry is read at its address (R30, R32). -/
theorem busRead_entry (s : State) {T : Table} {k : Nat} (h1 : 1 ≤ k) (hk : k ≤ T.size) :
    (busRead s (HostName.entry T k).addr).toNat = s.entry T k := by
  have hbounds : 0x20 ≤ T.base ∧ (T.base + T.size ≤ 0x4E ∨ (0x50 ≤ T.base ∧ T.base + T.size ≤ 0x60)) := by
    cases T <;> decide
  have hn : (HostName.entry T k).addr.toNat = T.base + k - 1 := addr_toNat (show T.base + k - 1 < 2 ^ 16 by omega)
  rw [busRead_of_ram s (target_writable (by omega)), hn]
  rfl

theorem busRead_input (s : State) {i : Nat} (hi : i < 256) : (busRead s (HostName.input i).addr).toNat = s.input i := by
  have hbase : inBase = 0x100 := rfl
  have hn : (HostName.input i).addr.toNat = inBase + i := addr_toNat (show inBase + i < 2 ^ 16 by omega)
  rw [busRead_of_ram s (target_writable (by omega)), hn]
  rfl

theorem busRead_output (s : State) {i : Nat} (hi : i < 256) : (busRead s (HostName.output i).addr).toNat = s.output i := by
  have hbase : outBase = 0x200 := rfl
  have hn : (HostName.output i).addr.toNat = outBase + i := addr_toNat (show outBase + i < 2 ^ 16 by omega)
  rw [busRead_of_buffer s (target_buffer (by omega)), hn]
  rfl

/-- Word 0 of a record is IDX above TAG (R95). -/
theorem traceRecord_idx_append_tag (s : State) (i : Nat) :
    (s.traceRecord i).idx ++ (s.traceRecord i).tag = s.mem.read (traceBase + recordWords * i + 0) :=
  BitVec.extractLsb'_append_extractLsb'

/-- Settles O18: each name's address lies in the region of the register map that reads as the name. -/
theorem everyNameIsReadAtItsAddress : Obligations.EveryNameIsReadAtItsAddress := by
  intro s
  refine ⟨rfl, s.status.toWord_toNat, rfl, busRead_operand s, rfl, rfl, rfl, rfl, fun T k => busRead_entry s,
    fun r c => busRead_sbox s r.isLt c.isLt, fun i => busRead_input s, fun i => busRead_output s, fun i hi => ⟨?_, ?_⟩⟩
  · refine ⟨?_, busRead_trace s hi (by decide), busRead_trace s hi (by decide), busRead_trace s hi (by decide),
      busRead_trace s hi (by decide)⟩
    exact (busRead_trace s hi (by decide)).trans (traceRecord_idx_append_tag s i).symm
  · exact fun hs k h5 hk => busRead_trace_reserved hs hi h5 hk

/-! ### The host's wait (R101) -/

/-- Repeated reads of one address return the same word each time. -/
theorem hostTurns_replicate_read_reads (s : State) (addr : Addr) (n : Nat) :
    (hostTurns s (List.replicate n (.read addr))).outside.reads =
      List.replicate n (addr, busRead s addr) ++ s.outside.reads := by
  induction n generalizing s with
  | zero => rfl
  | succ n ih =>
    refine (ih (hostRead s addr)).trans ?_
    rw [hostRead_outside, List.replicate_succ', List.append_assoc, List.singleton_append]
    rfl

/-- A wait's turns are its polls, the engine's turn and the last read (R101). -/
theorem waitTurns_append (polls : Nat) (rest : List Turn) :
    waitTurns polls ++ rest =
      (List.replicate polls (.read HostName.status.addr)).map Turn.host ++
        .engine :: .host (.read HostName.status.addr) :: rest := by
  rw [waitTurns, List.map_replicate, List.append_assoc]
  rfl

/-- Settles O19: the polls read the STATUS of the running command, and the last read comes behind the engine's turn, which
leaves BUSY = 0. -/
theorem waitEndsWithBusyClear : Obligations.WaitEndsWithBusyClear := by
  intro s polls rest hbusy hturns
  have hrun := run_hostTurns (hturns.trans (waitTurns_append polls rest)) 2
  rw [List.length_replicate] at hrun
  obtain ⟨u, hu⟩ := step_next
    ((hostTurns s (List.replicate polls (.read HostName.status.addr))).withTurns
      (.engine :: .host (.read HostName.status.addr) :: rest))
  have heng := (step_of_engine_turn rfl).symm.trans hu
  have hclear : u.status.busy = false := engineTurn_clears_busy heng
  have hout := engineTurn_outside heng
  have hlast : step u = .next (hostRead (u.withTurns rest) HostName.status.addr) := step_of_host_turn (by rw [hout]; rfl)
  refine ⟨hostRead (u.withTurns rest) HostName.status.addr, u.status.toWord,
    List.replicate polls (HostName.status.addr, s.status.toWord), hrun.trans ((run_succ hu 1).trans (run_one hlast)), rfl,
    hclear, ?_, ?_, List.length_replicate, fun x hx => ?_⟩
  · rw [hostRead_outside, State.withTurns_outside, hout]
    exact congrArg (_ :: ·) (hostTurns_replicate_read_reads s HostName.status.addr polls)
  · exact u.status.toWord_fields.1.trans hclear
  · obtain ⟨-, rfl⟩ := List.mem_replicate.1 hx
    exact ⟨rfl, s.status.toWord_fields.1.trans hbusy⟩

end Sys2Proof.Machine

/-! PROOFS. What a command's result depends on: states that agree on what the opcode map says a command reads compute the
same (spec/30_encoding.md R81; spec/00_scope.md section 1). -/

namespace Sys2Proof.Machine

open Sys2Proof.Claims

/-! ### States that agree on what a command reads -/

theorem table_congr {s t : State} {T : Table} (h : sameTable s t T) : s.table T = t.table T := State.firstEntries_congr h

theorem message_congr {s t : State} (hmlen : s.mlen = t.mlen) (h : ∀ k < 256, s.input k = t.input k) :
    s.message = t.message := by
  rw [State.message, State.message, hmlen]
  exact List.map_congr_left fun k hk => h k (lt_of_lt_of_le (List.mem_range.1 hk) (min_le_right _ _))

/-- The length fields and their checks depend on LEN only (R25, R133). -/
theorem lengths_congr {s t : State} (hlen : s.len = t.len) :
    lx s = lx t ∧ ly s = ly t ∧ checkLen s = checkLen t ∧ checkLx s = checkLx t ∧ checkLy s = checkLy t := by
  simp only [lx, ly, checkLen, checkLx, checkLy, State.lenReservedSet, State.lx, State.ly, hlen, and_self]

theorem checkA_congr {s t : State} (ha : s.a = t.a) (hlen : s.len = t.len) : checkA s = checkA t := by
  rw [checkA, checkA, State.lx, State.lx, ha, hlen]

theorem checkB_congr {s t : State} (hb : s.b = t.b) (hlen : s.len = t.len) : checkB s = checkB t := by
  rw [checkB, checkB, State.ly, State.ly, hb, hlen]

/-- PERMUTE reads GT up to LY only behind the check of LY, so a state that fails a check is decided without GT. -/
theorem command_permute_congr {s t : State} (ha : s.a = t.a) (hlen : s.len = t.len) (hgt : sameTable s t .gt) :
    command .permute s = command .permute t := by
  obtain ⟨hlx, hly, -⟩ := lengths_congr hlen
  have hmal : permuteMalformed s ↔ permuteMalformed t := by
    rw [permuteMalformed, permuteMalformed, lenReserved, lenReserved, hlx, hly, ha, hlen]
  by_cases hbad : permuteMalformed s
  · rw [command_permute_of_malformed hbad, command_permute_of_malformed (hmal.1 hbad)]
  · have hly16 : ly s ≤ 16 := by
      unfold permuteMalformed at hbad
      omega
    have hentries : s.firstEntries .gt (ly s) = t.firstEntries .gt (ly s) :=
      State.firstEntries_congr fun k h1 hk => hgt k h1 (hk.trans hly16)
    rw [command_permute, command_permute, checked_append_of_pass (permuteChecks_error s) (mt permuteChecks_any_iff.1 hbad),
      checked_append_of_pass (permuteChecks_error t) (mt permuteChecks_any_iff.1 (mt hmal.2 hbad)), ← hlx, ← hly, ← ha,
      hentries]

/-- The round function reads the S-boxes of the parameters, and nothing else of them. -/
theorem roundF_congr {s t : State} (hep : sameTable s t .ep) (hp4 : sameTable s t .p4)
    (h0 : s.cfg.sbox0 = t.cfg.sbox0) (h1 : s.cfg.sbox1 = t.cfg.sbox1) (h k : Nat) : s.roundF h k = t.roundF h k := by
  simp only [State.roundF, roundF, table_congr hep, table_congr hp4, h0, h1]

theorem round_records_congr {s t : State} (h0 : s.cfg.sbox0 = t.cfg.sbox0) (h1 : s.cfg.sbox1 = t.cfg.sbox1) (f : Round)
    (r : Nat) : roundRecords s f r = roundRecords t f r := by
  rw [roundRecords, roundRecords, h0, h1]

theorem keySchedule_congr {s t : State} (hkey : s.key = t.key) (hp10 : sameTable s t .p10) (hp8 : sameTable s t .p8) :
    s.keySchedule = t.keySchedule := by
  rw [State.keySchedule, State.keySchedule, hkey, table_congr hp10, table_congr hp8]

/-- The datapath, its checks and what it commits depend on KEY, BLOCK, the six tables and the S-boxes only (R205, R206). -/
theorem feistel_congr {s t : State} (hT : ∀ T, T ≠ .gt → sameTable s t T) (h0 : s.cfg.sbox0 = t.cfg.sbox0)
    (h1 : s.cfg.sbox1 = t.cfg.sbox1) (block ka kb : Nat) : s.feistel block ka kb = t.feistel block ka kb := by
  have hround := roundF_congr (hT .ep (by decide)) (hT .p4 (by decide)) h0 h1
  simp only [State.feistel, hround, table_congr (hT .ip (by decide)), table_congr (hT .ipinv (by decide))]

theorem feistelCommit_congr {s t : State} (h0 : s.cfg.sbox0 = t.cfg.sbox0) (h1 : s.cfg.sbox1 = t.cfg.sbox1)
    (v : KeySchedule) (ka kb dir : Nat) (f : Feistel) : feistelCommit s v ka kb dir f = feistelCommit t v ka kb dir f := by
  simp only [feistelCommit, feistelRecords, round_records_congr h0 h1]

theorem checkTable_congr {s t : State} {T : Table} (h : sameTable s t T) (lin : Nat) :
    checkTable s T lin = checkTable t T lin := by
  rw [checkTable, checkTable, table_congr h]

theorem sdesChecks_congr {s t : State} (hkey : s.key = t.key) (hblock : s.block = t.block)
    (hT : ∀ T, T ≠ .gt → sameTable s t T) : sdesChecks s = sdesChecks t := by
  simp only [sdesChecks, checkKey, hkey, hblock, checkTable_congr (hT .p10 (by decide)),
    checkTable_congr (hT .p8 (by decide)), checkTable_congr (hT .ip (by decide)), checkTable_congr (hT .ipinv (by decide)),
    checkTable_congr (hT .ep (by decide)), checkTable_congr (hT .p4 (by decide))]

/-- Each command computes from what R81 says it reads. -/
theorem command_congr {i : Instr} {s t : State} (h : sameReads i s t) : command i s = command i t := by
  cases i with
  | gcd | modinv =>
    obtain ⟨ha, hb⟩ := h
    simp only [command, gcdCommand, modinvCommand, ha, hb]
  | modexp =>
    obtain ⟨ha, hb, hc⟩ := h
    rw [command_modexp, command_modexp, ha, hb, hc]
  | permute =>
    obtain ⟨ha, hlen, hgt⟩ := h
    exact command_permute_congr ha hlen hgt
  | rotl =>
    obtain ⟨ha, hb, hlen⟩ := h
    obtain ⟨hlx, -, hcheckLen, hcheckLx, -⟩ := lengths_congr hlen
    rw [command_rotl, command_rotl, hcheckLen, hcheckLx, checkA_congr ha hlen, hlx, ha, hb]
  | xor =>
    obtain ⟨ha, hb, hlen⟩ := h
    obtain ⟨hlx, hly, hcheckLen, hcheckLx, hcheckLy⟩ := lengths_congr hlen
    rw [command_xor, command_xor, hcheckLen, hcheckLx, hcheckLy, checkA_congr ha hlen, checkB_congr hb hlen,
      hlx, hly, ha, hb]
  | rsaKeygen =>
    obtain ⟨hp, hq⟩ := h
    simp only [command_rsaKeygen, checkPq, withKeys, hp, hq]
  | rsaEnc | rsaDec =>
    obtain ⟨hp, hq, hmlen, hin, hmax⟩ := h
    simp only [command_rsaEnc, command_rsaDec, checkPq, checkMlen, checkMessage, withKeys, State.indexedMessage,
      message_congr hmlen hin, hp, hq, hmlen, hmax]
  | sdesKeysched =>
    obtain ⟨hkey, hp10, hp8⟩ := h
    rw [command_sdesKeysched, command_sdesKeysched, keySchedule_congr hkey hp10 hp8, checkKey, checkKey, hkey,
      checkTable_congr hp10, checkTable_congr hp8]
  | sdesEnc | sdesDec =>
    obtain ⟨hkey, hblock, hT, h0, h1⟩ := h
    simp only [command_sdesEnc, command_sdesDec, sdesChecks_congr hkey hblock hT,
      keySchedule_congr hkey (hT .p10 (by decide)) (hT .p8 (by decide)), feistel_congr hT h0 h1,
      feistelCommit_congr h0 h1, hblock]
  | sdesF =>
    obtain ⟨ha, hb, hep, hp4, h0, h1⟩ := h
    simp only [command_sdesF, roundCommit, roundF_congr hep hp4 h0 h1, round_records_congr h0 h1, checkTable_congr hep,
      checkTable_congr hp4, ha, hb]

/-- Settles O25: the two states compute the same error or the same commit, and a commit fixes the results, TRACE, and OUT
where the command has a new one. -/
theorem resultsDependOnlyOnWhatIsRead : Obligations.ResultsDependOnlyOnWhatIsRead := by
  intro i s t hreads
  have hsame := command_congr hreads
  cases hk : command i s with
  | error e =>
    refine ⟨_, _, exec_of_error hk, exec_of_error (hsame ▸ hk), rfl, rfl, rfl, fun hok => ?_⟩
    simp at hok
  | ok k =>
    refine ⟨_, _, exec_of_ok hk, exec_of_ok (hsame ▸ hk), rfl, rfl, rfl, fun _ => ⟨rfl, rfl, rfl, rfl, rfl,
      fun n hn => ?_, fun hi n hn => ?_⟩⟩
    · rw [traceRecord_commit s k hn, traceRecord_commit t k hn]
    · obtain ⟨out, hout⟩ := Option.isSome_iff_exists.1 ((command_commits_shape i s k hk).out.2 hi)
      rw [output_commit s k hout hn, output_commit t k hout hn]

end Sys2Proof.Machine

/-! PROOFS. What the spec infers of inverses, degenerate keys and the RSA round trip (spec/40_numeric.md R113;
spec/42_rsa.md R156, R170). -/

namespace Sys2Proof.Machine

open Sys2Proof.Claims

/-! ### When MODINV finds an inverse (R113) -/

theorem minv_isSome_iff {e phi : Nat} : (minv e phi).isSome = true ↔ 2 ≤ phi ∧ Nat.gcd e phi = 1 := by
  constructor
  · intro h
    by_contra hnot
    rw [minv_not_coprime (by omega)] at h
    cases h
  · rintro ⟨hphi, hg⟩
    obtain ⟨d, hd, -⟩ := minv_coprime hphi hg
    rw [hd]
    rfl

/-- Settles O28: MODINV commits FOUND as the search's answer, which is there exactly for coprime operands. -/
theorem modinvFindsExactlyTheCoprime : Obligations.ModinvFindsExactlyTheCoprime :=
  fun s => ⟨_, complete_ok s _, minv_isSome_iff⟩

/-! ### Degenerate keys (R156) -/

/-- There is no key exactly when p or q is 0 or phi is below 3 (R151, R152). -/
theorem noKey_iff {s : State} : noKey s ↔ s.p.toNat = 0 ∨ s.q.toNat = 0 ∨ phi s < 3 := by
  constructor
  · rintro (hp | hq | hnone)
    · exact .inl hp
    · exact .inr (.inl hq)
    · refine .inr (.inr (not_le.1 fun h3 => ?_))
      obtain ⟨e, he⟩ := publicExponent_isSome.2 h3
      obtain ⟨h2, hlt, hg, -⟩ := publicExponent_some he
      exact hnone e h2 hlt hg
  · rintro (hp | hq | hsmall)
    · exact .inl hp
    · exact .inr (.inl hq)
    · exact .inr (.inr fun e h2 hlt => by omega)

/-- Behind the check of P and Q, RSA_KEYGEN ends in DegenerateKey exactly when there is no key. -/
theorem exec_rsaKeygen_degenerate_iff {s : State} (hpq : ¬ pqTooWide s) :
    exec .rsaKeygen s = .next (errored s 4) ↔ noKey s := by
  obtain ⟨-, -, hdegenerate, hkeys⟩ := rsaKeygenDerivesTheKeys
  refine ⟨fun h => ?_, hdegenerate s hpq⟩
  by_contra hkey
  obtain ⟨t, e, d, hexec, -, -, hdone⟩ := hkeys s hpq hkey
  obtain rfl : t = errored s 4 := by simpa [hexec] using h
  simpa [errored] using congrArg Status.err hdone.status

/-- A product of two positive naturals is below 3 only for 1 * 1, 1 * 2 and 2 * 1. -/
theorem mul_lt_three_iff {a b : Nat} (ha : 1 ≤ a) (hb : 1 ≤ b) :
    a * b < 3 ↔ (a = 1 ∧ b = 1) ∨ (a = 1 ∧ b = 2) ∨ (a = 2 ∧ b = 1) := by
  constructor
  · intro h
    have hale : a ≤ a * b := Nat.le_mul_of_pos_right a hb
    have hble : b ≤ a * b := Nat.le_mul_of_pos_left b ha
    obtain rfl | rfl : a = 1 ∨ a = 2 := by omega
    · omega
    · omega
  · rintro (⟨rfl, rfl⟩ | ⟨rfl, rfl⟩ | ⟨rfl, rfl⟩) <;> decide

/-- Settles O34: key generation is degenerate when p or q is 0 or (p - 1) * (q - 1) is below 3. -/
theorem degenerateKeysAreExactlyThese : Obligations.DegenerateKeysAreExactlyThese := by
  intro s hpq
  rw [exec_rsaKeygen_degenerate_iff hpq, noKey_iff, phi]
  by_cases hsmall : s.p.toNat ≤ 1 ∨ s.q.toNat ≤ 1
  · have hphi : (s.p.toNat - 1) * (s.q.toNat - 1) = 0 := Nat.mul_eq_zero.2 (by omega)
    rw [hphi]
    omega
  · rw [mul_lt_three_iff (by omega) (by omega)]
    omega

/-! ### The RSA round trip (R170) -/

/-- Fermat's little theorem, for every base: an exponent that is 1 modulo r - 1 changes nothing modulo the prime r. -/
theorem pow_modEq_self_of_prime {r : Nat} (hr : r.Prime) (m k : Nat) : m ^ (k * (r - 1) + 1) ≡ m [MOD r] := by
  have hfact := Fact.mk hr
  rw [← ZMod.natCast_eq_natCast_iff]
  push_cast
  by_cases hm : (m : ZMod r) = 0
  · rw [hm, zero_pow (by omega)]
  · rw [pow_succ, mul_comm k, pow_mul, ZMod.pow_card_sub_one_eq_one hm, one_pow, one_mul]

/-- Encryption and decryption with inverse exponents modulo (p - 1) * (q - 1) cancel modulo p * q (R170). -/
theorem pow_pow_mod_eq_self {p q e d m : Nat} (hp : p.Prime) (hq : q.Prime) (hne : p ≠ q)
    (hed : e * d % ((p - 1) * (q - 1)) = 1) (hm : m < p * q) : (m ^ e % (p * q)) ^ d % (p * q) = m := by
  obtain ⟨k, hk⟩ : ∃ k, e * d = k * ((p - 1) * (q - 1)) + 1 := by
    have hdiv := Nat.div_add_mod' (e * d) ((p - 1) * (q - 1))
    rw [hed] at hdiv
    exact ⟨_, hdiv.symm⟩
  have hmodp : m ^ (e * d) ≡ m [MOD p] := by
    rw [hk, mul_comm (p - 1), ← mul_assoc]
    exact pow_modEq_self_of_prime hp m _
  have hmodq : m ^ (e * d) ≡ m [MOD q] := by
    rw [hk, ← mul_assoc]
    exact pow_modEq_self_of_prime hq m _
  have hmod : m ^ (e * d) ≡ m [MOD p * q] :=
    (Nat.modEq_and_modEq_iff_modEq_mul ((Nat.coprime_primes hp hq).2 hne)).1 ⟨hmodp, hmodq⟩
  rw [← Nat.pow_mod, ← pow_mul]
  exact Nat.mod_eq_of_modEq hmod hm

/-- Primes above 2 have a key. -/
theorem not_noKey_of_lt {s : State} (hp : 2 < s.p.toNat) (hq : 2 < s.q.toNat) : ¬ noKey s := by
  have hphi : 2 * 2 ≤ phi s := Nat.mul_le_mul (by omega) (by omega)
  rw [noKey_iff]
  omega

theorem not_pqTooWide_of_lt {s : State} (hp : s.p.toNat < 2 ^ 16) (hq : s.q.toNat < 2 ^ 16) : ¬ pqTooWide s :=
  not_or.2 ⟨not_le.2 hp, not_le.2 hq⟩

theorem keyPair_congr {s r : State} (hp : r.p = s.p) (hq : r.q = s.q) (e d : Nat) : keyPair r e d = keyPair s e d := by
  rw [keyPair, keyPair, phi, phi, hp, hq]

/-- A state with no wide operand and keys decrypts when every decrypted element is a code point (R166). -/
theorem exec_rsaDec_of_valid {r : State} {e d : Nat} (hok : ¬ rsaDecMalformed r)
    (hgen : keyGen r.p.toNat r.q.toNat = .ok (keyPair r e d))
    (hvalid : ∀ i < r.mlen.toNat, elementPower r d i ≤ r.cfg.cpMax) :
    exec .rsaDec r = .next (r.commit (messageCommit r e d 0x17 d)) := by
  have hlen : r.mlen.toNat ≤ 256 := not_lt.1 fun hlong => hok (.inr hlong)
  have hin : ¬ ∃ i < r.mlen.toNat, r.cfg.cpMax < elementPower r d i :=
    fun ⟨i, hi, hbig⟩ => absurd (hvalid i hi) (not_le.2 hbig)
  have hcmd := command_rsaDec_of_keyGen hok hgen
  rw [Bool.eq_false_iff.2 (mt (message_any_invalid_iff hlen d).1 hin)] at hcmd
  exact exec_of_ok hcmd

/-- Settles O37: both commands derive the same keys, and raising to e and then to d gives each element of the message back
modulo p * q. -/
theorem rsaDecInvertsRsaEnc : Obligations.RsaDecInvertsRsaEnc := by
  intro s hpprime hqprime hne hp2 hq2 hp16 hq16 hlen hmsg
  have hpq := not_pqTooWide_of_lt hp16 hq16
  have hok : ¬ rsaEncMalformed s :=
    not_or.2 ⟨hpq, not_or.2 ⟨not_lt.2 hlen, fun ⟨_, i, hi, hbig⟩ => absurd (hmsg i hi).2 (not_le.2 hbig)⟩⟩
  obtain ⟨e, d, hgen, he, -, -, hinv, -⟩ := keyGen_of_not_noKey (not_noKey_of_lt hp2 hq2)
  refine ⟨_, exec_of_ok (command_rsaEnc_of_keyGen hok hgen), rfl, fun r hp hq hmlen hcfg hin => ?_⟩
  have hpqr : ¬ pqTooWide r := by rwa [pqTooWide, hp, hq]
  have hlenr : r.mlen.toNat ≤ 256 := hmlen ▸ hlen
  have hgenr : keyGen r.p.toNat r.q.toNat = .ok (keyPair r e d) := by rw [keyPair_congr hp hq, hp, hq, hgen]
  have her : IsExponent r e := by rwa [IsExponent, phi, hp, hq]
  have hback (i : Nat) (hi : i < s.mlen.toNat) : elementPower r d i = s.input i := by
    rw [elementPower, hp, hq, hin i hi, output_messageCommit_of_lt hpq hlen he d 0x16 e hi]
    exact pow_pow_mod_eq_self hpprime hqprime (fun heq => hne (BitVec.eq_of_toNat_eq heq)) hinv (hmsg i hi).1
  refine ⟨_, exec_rsaDec_of_valid (not_or.2 ⟨hpqr, not_lt.2 hlenr⟩) hgenr fun i hi => ?_, rfl, fun i hi => ?_⟩
  · rw [hmlen] at hi
    rw [hback i hi, hcfg]
    exact (hmsg i hi).2
  · exact (output_messageCommit_of_lt hpqr hlenr her d 0x17 d (hmlen.symm ▸ hi)).trans (hback i hi)

end Sys2Proof.Machine

/-! PROOFS. The S-DES round trip: inverse tables give inverse permutations, and the datapath with the round keys swapped
undoes the datapath (spec/44_sdes_feistel.md R215). -/

namespace Sys2Proof.Machine

open Sys2Proof.Claims

/-- Permuting by T and then by a table U that T inverts gives the string back (R130). -/
theorem isPerm_inverse {v w o k : Nat} {T U : Nat → Nat} (hv : v < 2 ^ k) (ho : IsPerm v k T k o) (hw : IsPerm o k U k w)
    (hU : ∀ i, 1 ≤ i → i ≤ k → 1 ≤ U i ∧ U i ≤ k) (hTU : ∀ i, 1 ≤ i → i ≤ k → T (U i) = i) : w = v := by
  obtain ⟨-, hobits⟩ := ho
  obtain ⟨hwlt, hwbits⟩ := hw
  have hbit (i : Nat) (h1 : 1 ≤ i) (hik : i ≤ k) : bitAt w (k - i) = bitAt v (k - i) := by
    obtain ⟨hU1, hUk⟩ := hU i h1 hik
    rw [hwbits i h1 hik, hobits (U i) hU1 hUk, hTU i h1 hik]
  refine eq_of_bits hwlt hv fun j hj => ?_
  have hpos := hbit (k - j) (by omega) (by omega)
  rwa [show k - (k - j) = j by omega] at hpos

/-- Cutting an 8-bit string gives back the two halves it was joined from. -/
theorem slice_concat_halves {l r : Nat} (hl : l < 2 ^ 4) (hr : r < 2 ^ 4) :
    slice (concat l 4 r) 7 4 = l ∧ slice (concat l 4 r) 3 0 = r := by
  have hlt : concat l 4 r < 2 ^ (7 + 1) := concat_lt hl hr
  rw [slice_to_top (by decide) hlt, slice_zero, concat]
  omega

/-- IP and IPINV are inverse to each other on positions 1 to 8 (R215). -/
def inverseTables (s : State) : Prop :=
  ∀ i, 1 ≤ i → i ≤ 8 → s.entry .ipinv (s.entry .ip i) = i ∧ s.entry .ip (s.entry .ipinv i) = i

theorem roundF_p_lt (s : State) (h k : Nat) : (s.roundF h k).p < 2 ^ 4 := (isPerm_perm_table s .p4 _ 4).1

/-- IPINV and then IP give an 8-bit string back. -/
theorem perm_ip_perm_ipinv {s : State} (hip : tableIn s .ip 8 8) (hinv : inverseTables s) {v : Nat} (hv : v < 2 ^ 8) :
    perm (perm v 8 (s.table .ipinv)) 8 (s.table .ip) = v :=
  isPerm_inverse hv (isPerm_perm_table s .ipinv v 8) (isPerm_perm_table s .ip _ 8) hip fun i h1 h8 => (hinv i h1 h8).1

/-- IP and then IPINV give an 8-bit string back. -/
theorem perm_ipinv_perm_ip {s : State} (hipinv : tableIn s .ipinv 8 8) (hinv : inverseTables s) {v : Nat} (hv : v < 2 ^ 8) :
    perm (perm v 8 (s.table .ip)) 8 (s.table .ipinv) = v :=
  isPerm_inverse hv (isPerm_perm_table s .ip v 8) (isPerm_perm_table s .ipinv _ 8) hipinv fun i h1 h8 => (hinv i h1 h8).2

section
variable (s : State) (block ka kb : Nat)

/-- The named values of the datapath, each from those before it (R206). -/
theorem feistel_ip : (s.feistel block ka kb).ip = perm block 8 (s.table .ip) := rfl
theorem feistel_l0 : (s.feistel block ka kb).l0 = slice (s.feistel block ka kb).ip 7 4 := rfl
theorem feistel_r0 : (s.feistel block ka kb).r0 = slice (s.feistel block ka kb).ip 3 0 := rfl
theorem feistel_l1 : (s.feistel block ka kb).l1 =
    xorBits (s.feistel block ka kb).l0 (s.roundF (s.feistel block ka kb).r0 ka).p := rfl
theorem feistel_l2 : (s.feistel block ka kb).l2 =
    xorBits (s.feistel block ka kb).r0 (s.roundF (s.feistel block ka kb).l1 kb).p := rfl
theorem feistel_pre : (s.feistel block ka kb).pre = concat (s.feistel block ka kb).l2 4 (s.feistel block ka kb).l1 := rfl
theorem feistel_out : (s.feistel block ka kb).out = perm (s.feistel block ka kb).pre 8 (s.table .ipinv) := rfl

/-- The halves of each round have 4 bits (R206). -/
theorem feistel_halves_lt : (s.feistel block ka kb).l1 < 2 ^ 4 ∧ (s.feistel block ka kb).l2 < 2 ^ 4 :=
  ⟨xorBits_lt (slice_lt _ 7 4) (roundF_p_lt s _ _), xorBits_lt (slice_lt _ 3 0) (roundF_p_lt s _ _)⟩

/-- The two halves of IP's output, joined again, are that output. -/
theorem feistel_concat_l0_r0 :
    concat (s.feistel block ka kb).l0 4 (s.feistel block ka kb).r0 = (s.feistel block ka kb).ip := by
  have hlt : (s.feistel block ka kb).ip < 2 ^ (4 + (3 + 1)) := perm_lt block 8 (s.table .ip)
  rw [feistel_r0, slice_zero]
  exact concat_slice hlt

end

/-- The datapath with the round keys swapped undoes the datapath: IP undoes IPINV, each round's exclusive or undoes itself,
and IPINV undoes IP (R215). -/
theorem feistel_swapped_feistel {s : State} (hip : tableIn s .ip 8 8) (hipinv : tableIn s .ipinv 8 8)
    (hinv : inverseTables s) {block : Nat} (hblock : block < 2 ^ 8) (ka kb : Nat) :
    (s.feistel (s.feistel block ka kb).out kb ka).out = block := by
  obtain ⟨hl1lt, hl2lt⟩ := feistel_halves_lt s block ka kb
  obtain ⟨hleft, hright⟩ := slice_concat_halves hl2lt hl1lt
  have hpre : (s.feistel (s.feistel block ka kb).out kb ka).ip = (s.feistel block ka kb).pre := by
    rw [feistel_ip, feistel_out]
    exact perm_ip_perm_ipinv hip hinv (concat_lt hl2lt hl1lt)
  have hl0 : (s.feistel (s.feistel block ka kb).out kb ka).l0 = (s.feistel block ka kb).l2 := by
    rw [feistel_l0, hpre, feistel_pre, hleft]
  have hr0 : (s.feistel (s.feistel block ka kb).out kb ka).r0 = (s.feistel block ka kb).l1 := by
    rw [feistel_r0, hpre, feistel_pre, hright]
  have hl1 : (s.feistel (s.feistel block ka kb).out kb ka).l1 = (s.feistel block ka kb).r0 := by
    rw [feistel_l1, hl0, hr0, feistel_l2, xorBits_cancel]
  have hl2 : (s.feistel (s.feistel block ka kb).out kb ka).l2 = (s.feistel block ka kb).l0 := by
    rw [feistel_l2, hr0, hl1, feistel_l1, xorBits_cancel]
  rw [feistel_out, feistel_pre, hl2, hl1, feistel_concat_l0_r0, feistel_ip, perm_ipinv_perm_ip hipinv hinv hblock]

/-! ### The two states of the round trip -/

theorem tableIn_congr {s t : State} {T : Table} {n lin : Nat} (h : sameTable t s T) (hn : n ≤ T.size)
    (hin : tableIn s T n lin) : tableIn t T n lin := by
  intro k h1 hk
  rw [h k h1 (hk.trans hn)]
  exact hin k h1 hk

theorem sdesTablesIn_congr {s t : State} (h : ∀ T, sameTable t s T) (hin : sdesTablesIn s) : sdesTablesIn t := by
  obtain ⟨hp10, hp8, hip, hipinv, hep, hp4⟩ := hin
  exact ⟨tableIn_congr (h _) le_rfl hp10, tableIn_congr (h _) le_rfl hp8, tableIn_congr (h _) le_rfl hip,
    tableIn_congr (h _) le_rfl hipinv, tableIn_congr (h _) le_rfl hep, tableIn_congr (h _) le_rfl hp4⟩

theorem feistel_out_lt (s : State) (block ka kb : Nat) : (s.feistel block ka kb).out < 2 ^ 8 :=
  perm_lt _ 8 (s.table .ipinv)

/-- A state with the key, the tables and the ROM of s, and the block that s encrypts to, decrypts to the block of s. -/
theorem exec_sdesDec_of_encrypted {s r : State} (hkey : r.key = s.key) (hcfg : r.cfg = s.cfg) (hT : ∀ T, sameTable r s T)
    (hblock : r.block.toNat = (s.feistel s.block.toNat s.keySchedule.k1 s.keySchedule.k2).out) (hok : ¬ sdesMalformed s)
    (hin : sdesTablesIn s) (hinv : inverseTables s) :
    ∃ u, exec .sdesDec r = .next u ∧ u.status.err = false ∧ u.res0 = s.block := by
  obtain ⟨hkey10, hblock8⟩ : s.key.toNat < 2 ^ 10 ∧ s.block.toNat < 2 ^ 8 := by
    simpa only [sdesMalformed, not_or, not_le] using hok
  have hokr : ¬ sdesMalformed r := by
    rw [sdesMalformed, hkey, hblock, not_or, not_le, not_le]
    exact ⟨hkey10, feistel_out_lt s _ _ _⟩
  refine ⟨_, (sdes_endsByChecks (command_sdesDec r)).commits hokr (sdesTablesIn_congr hT hin), rfl, ?_⟩
  obtain ⟨-, -, hip, hipinv, -, -⟩ := hin
  rw [State.commit_res0, feistelCommit, keySchedule_congr hkey (hT _) (hT _),
    feistel_congr (fun T _ => hT T) (congrArg _ hcfg) (congrArg _ hcfg), hblock,
    feistel_swapped_feistel hip hipinv hinv hblock8]
  exact BitVec.eq_of_toNat_eq (word_toNat_of_lt s.block.isLt)

/-- Settles O42: SDES_DEC finds the key, the tables and the ROM as SDES_ENC did, since a commit and a write of BLOCK reach
none of them, and its datapath has the round keys swapped. -/
theorem sdesDecInvertsSdesEnc : Obligations.SdesDecInvertsSdesEnc := by
  intro s hok hin hinv
  refine ⟨_, (sdes_endsByChecks (command_sdesEnc s)).commits hok hin, rfl, ?_⟩
  refine exec_sdesDec_of_encrypted rfl rfl (fun T j _ hj => s.entry_commit _ T j hj) ?_ hok hin hinv
  exact word_toNat_of_lt (lt_word_of_lt_pow (feistel_out_lt s _ _ _) (by decide))

end Sys2Proof.Machine
